-- ==== Sys2Proof/Word.lean ====
section
/-! DEFINITION. The word types of processor_core: the register and memory word, the byte, the 16-bit quantity and
the register index (00_scope.md R6). -/

namespace Sys2Proof

/-- One byte: an opcode, a register index as it is encoded, a quarter of a memory word (R6, R8). -/
abbrev Byte := BitVec 8

/-- The 32-bit unit of memory, of a register and of an instruction (R6, R12). -/
abbrev Word := BitVec 32

/-- A 16-bit quantity: the program counter, a word address, an immediate, a jump target (R6). -/
abbrev Half := BitVec 16

/-- The number of a general register, 0 to 15 (10_state.md R20). An encoded register index is a whole byte and may
name no register (R23); it becomes a `RegIdx` only after the operand check. -/
abbrev RegIdx := Fin 16

end Sys2Proof
end

