-- ==== Sys2Proof/Config.lean ====
section
/-! DEFINITION. The parameters the spec leaves open (00_scope.md R7, R11): the opcode map `OPC`, the capacity
`MEM_WORDS`, the debug toggle, and what a byte of memory that nothing has listed reads as. -/

namespace Sys2Proof

/-- `OPC`, the map from the 15 instructions to opcode bytes, one named byte each (30_encoding.md R80). A parameter:
the source gives no opcode value. The spec's default values are `defaultOpcodes` in Decode.lean. -/
structure OpcodeMap where
  ldi : Byte
  ld  : Byte
  st  : Byte
  add : Byte
  sub : Byte
  mul : Byte
  and : Byte
  or  : Byte
  not : Byte
  cmp : Byte
  je  : Byte
  jne : Byte
  hlt : Byte
  prn : Byte
  nop : Byte
deriving DecidableEq, Repr

/-- The configuration, fixed before the first step (10_state.md R38). State carries it unchanged, since the host's
interface gives `step` no argument but the state (log entry 1). -/
structure Config where
  /-- `MEM_WORDS`, the memory capacity in words, 1 to 65536 (20_memory.md R51). -/
  memWords : Nat
  /-- `OPC` (R80). -/
  opc : OpcodeMap
  /-- `dbg_en`, the debug toggle (10_state.md R37); no step reads it (60_exceptions.md R186). -/
  dbgEn : Bool
deriving DecidableEq, Repr

/-- What a byte of memory that no entry lists reads as. DESIGN CHOICE (log entry 4): the spec leaves `MEM_INIT` open
(decision D11); the bytes an image does not list are 0 here. Unsafe for a claim that leans on the value. -/
def Config.unlistedByte : Byte := 0#8

end Sys2Proof
end

