-- ==== Sys2Proof/Syntax.lean ====
section
/-! DEFINITION. The closed instruction set (00_scope.md R3): the 15 instruction kinds, and the instructions with
their operand fields (30_encoding.md R72 to R77). -/

namespace Sys2Proof

/-- The 15 instruction kinds, in the order of the opcode table (R3, R80). The kind is what byte 0 alone decides (R81). -/
inductive Kind where
  | ldi | ld | st | add | sub | mul | and | or | not | cmp | je | jne | hlt | prn | nop
deriving DecidableEq, Repr

/-- An instruction: its kind with the operand fields of its layout. A register operand is the WHOLE encoded byte (R78),
since the decoder does not look at it (R71, R102); a byte of 16 to 255 is an instruction that faults when it executes
(R84), and `Instr.wellFormed` says which those are. Unused bytes are no field: they change nothing (R83; UNVERIFIED:
the spec's decision D9; unsafe, log entry 11). -/
inductive Instr where
  /-- `LDI rD, imm`: layout RI (R72, R120). -/
  | ldi (rd : Byte) (imm : Half)
  /-- `LD rD, [addr]`: layout RI (R72, R121). -/
  | ld (rd : Byte) (addr : Half)
  /-- `ST rS, [addr]`: layout RI (R72, R122). -/
  | st (rs : Byte) (addr : Half)
  /-- `ADD rD, rA, rB`: layout RRR (R73, R131). -/
  | add (rd ra rb : Byte)
  /-- `SUB rD, rA, rB`: layout RRR (R73, R132). -/
  | sub (rd ra rb : Byte)
  /-- `MUL rD, rA, rB`: layout RRR (R73, R133). -/
  | mul (rd ra rb : Byte)
  /-- `AND rD, rA, rB`: layout RRR (R73, R134). -/
  | and (rd ra rb : Byte)
  /-- `OR rD, rA, rB`: layout RRR (R73, R135). -/
  | or (rd ra rb : Byte)
  /-- `NOT rD`: layout R (R74, R136). -/
  | not (rd : Byte)
  /-- `CMP rA, rB`: layout RR (R75, R151). -/
  | cmp (ra rb : Byte)
  /-- `JE target`: layout J (R76, R152). -/
  | je (target : Half)
  /-- `JNE target`: layout J (R76, R153). -/
  | jne (target : Half)
  /-- `HLT`: layout N (R77, R160). -/
  | hlt
  /-- `PRN rS`: layout R (R74, R161). -/
  | prn (rs : Byte)
  /-- `NOP`: layout N (R77, R162). -/
  | nop
deriving DecidableEq, Repr

/-- Why the decoder gives no instruction. -/
inductive DecodeError where
  /-- Byte 0 of the word is not in the range of `OPC` (R82). -/
  | undefinedOpcode (opcode : Byte)
  /-- Fewer than the four bytes of a word were given: no word of the core's memory, only a short byte list. -/
  | truncated (length : Nat)
deriving DecidableEq, Repr

end Sys2Proof
end

