-- ==== Sys2Proof/WellFormed.lean ====
section
/-! DEFINITION. Which instructions name only registers that exist (30_encoding.md R84): every byte the layout uses as
a register index is 0 to 15. -/

namespace Sys2Proof

/-- The bytes an instruction's layout uses as register indices, each with its byte number in the word, in increasing
byte number (R84: `r` for RI and R; `rd`, `ra`, `rb` for RRR; `ra`, `rb` for RR; none for J and N). -/
def Instr.registerBytes : Instr → List (Fin 4 × Byte)
  | .ldi rd _ => [(1, rd)]
  | .ld rd _ => [(1, rd)]
  | .st rs _ => [(1, rs)]
  | .add rd ra rb => [(1, rd), (2, ra), (3, rb)]
  | .sub rd ra rb => [(1, rd), (2, ra), (3, rb)]
  | .mul rd ra rb => [(1, rd), (2, ra), (3, rb)]
  | .and rd ra rb => [(1, rd), (2, ra), (3, rb)]
  | .or rd ra rb => [(1, rd), (2, ra), (3, rb)]
  | .not rd => [(1, rd)]
  | .cmp ra rb => [(1, ra), (2, rb)]
  | .je _ => []
  | .jne _ => []
  | .hlt => []
  | .prn rs => [(1, rs)]
  | .nop => []

/-- The first register byte, by byte number, that exceeds 15, with its byte number (R84, R104). -/
def Instr.firstBadRegister (i : Instr) : Option (Fin 4 × Byte) :=
  i.registerBytes.find? (fun p => 15 < p.2.toNat)

/-- Every register byte is 0 to 15. A 16-bit field has no ill-formed value (R85). -/
def Instr.wellFormed (i : Instr) : Bool :=
  i.registerBytes.all (fun p => p.2.toNat ≤ 15)

/-- The byte that encodes a register number. -/
def regByte (r : RegIdx) : Byte := BitVec.ofNat 8 r.val

end Sys2Proof
end

