-- ==== Sys2Proof/Decode.lean ====
section
/-! DEFINITION. The bytes of a word and their order (20_memory.md R54), the opcode map (30_encoding.md R80), the decoder
(R81, R71 to R78) and, after it, the encoder (R79). -/

namespace Sys2Proof

/-! ### Bytes and fields of a word (00_scope.md R8, 20_memory.md R54) -/

/-- `B(w, i)`: byte `i` of a word is `w[8i+7:8i]`; byte 0 is the least significant (R8). UNVERIFIED: the byte order is
the spec's decision D2; unsafe (log entry 6). -/
def byteAt (w : Word) (i : Nat) : Byte := w.extractLsb' (8 * i) 8

/-- The word whose bytes 0 to 3 are the four given: `b0 + 2^8 b1 + 2^16 b2 + 2^24 b3` (R79). -/
def wordOfBytes (b0 b1 b2 b3 : Byte) : Word := b3 ++ (b2 ++ (b1 ++ b0))

/-- The 16-bit field whose low half is the first byte: `lo + 256 hi` (R54 item 2). -/
def halfOfBytes (lo hi : Byte) : Half := hi ++ lo

/-- The low half of a 16-bit field. -/
def lowByte (h : Half) : Byte := h.extractLsb' 0 8

/-- The high half of a 16-bit field. -/
def highByte (h : Half) : Byte := h.extractLsb' 8 8

/-- The immediate or address field `k16`: bytes 2 and 3, byte 2 the low half (R72, R78). -/
def k16 (w : Word) : Half := halfOfBytes (byteAt w 2) (byteAt w 3)

/-- The jump target field `t16`: bytes 1 and 2, byte 1 the low half (R76, R78). -/
def t16 (w : Word) : Half := halfOfBytes (byteAt w 1) (byteAt w 2)

/-! ### The opcode map (R80) -/

/-- The default opcode map: 0x01 to 0x0F in the order of R80. The values are the spec's own decision D1 (log entry 3). -/
def defaultOpcodes : OpcodeMap :=
  { ldi := 0x01#8, ld := 0x02#8, st := 0x03#8, add := 0x04#8, sub := 0x05#8, mul := 0x06#8, and := 0x07#8,
    or := 0x08#8, not := 0x09#8, cmp := 0x0A#8, je := 0x0B#8, jne := 0x0C#8, hlt := 0x0D#8, prn := 0x0E#8,
    nop := 0x0F#8 }

/-- `OPC(k)`, the opcode byte of a kind. -/
def OpcodeMap.opcode (m : OpcodeMap) : Kind → Byte
  | .ldi => m.ldi
  | .ld => m.ld
  | .st => m.st
  | .add => m.add
  | .sub => m.sub
  | .mul => m.mul
  | .and => m.and
  | .or => m.or
  | .not => m.not
  | .cmp => m.cmp
  | .je => m.je
  | .jne => m.jne
  | .hlt => m.hlt
  | .prn => m.prn
  | .nop => m.nop

/-- The 15 kinds, in the order of R80. -/
def Kind.all : List Kind :=
  [.ldi, .ld, .st, .add, .sub, .mul, .and, .or, .not, .cmp, .je, .jne, .hlt, .prn, .nop]

/-- `OPC` is injective: two instructions never share an opcode value (R80). -/
def OpcodeMap.injective (m : OpcodeMap) : Bool := decide ((Kind.all.map m.opcode).Nodup)

/-- The configuration meets what the spec requires of its parameters: 1 ≤ MEM_WORDS ≤ 65536 (R51), `OPC` injective (R80). -/
def Config.wf (c : Config) : Bool := decide (1 ≤ c.memWords) && decide (c.memWords ≤ 65536) && c.opc.injective

/-- The kind of an instruction. -/
def Instr.kind : Instr → Kind
  | .ldi _ _ => .ldi
  | .ld _ _ => .ld
  | .st _ _ => .st
  | .add _ _ _ => .add
  | .sub _ _ _ => .sub
  | .mul _ _ _ => .mul
  | .and _ _ _ => .and
  | .or _ _ _ => .or
  | .not _ => .not
  | .cmp _ _ => .cmp
  | .je _ => .je
  | .jne _ => .jne
  | .hlt => .hlt
  | .prn _ => .prn
  | .nop => .nop

/-- How many bytes of the word the layout of a kind uses, counted from byte 0; the rest are ignored (R72 to R77, R83). -/
def Kind.usedBytes : Kind → Nat
  | .ldi | .ld | .st => 4
  | .add | .sub | .mul | .and | .or => 4
  | .not | .prn => 2
  | .cmp => 3
  | .je | .jne => 3
  | .hlt | .nop => 1

/-! ### The decoder (R81, R82); the byte places are the spec's decision D3 (UNVERIFIED, unsafe, log entry 18) -/

/-- The kind whose opcode is the given byte, if there is one (R81). -/
def decodeKind (m : OpcodeMap) (b : Byte) : Option Kind := Kind.all.find? (fun k => m.opcode k == b)

/-- The operand fields of a word, unpacked by the layout of the kind (R72 to R77). -/
def operands (k : Kind) (w : Word) : Instr :=
  match k with
  | .ldi => .ldi (byteAt w 1) (k16 w)
  | .ld => .ld (byteAt w 1) (k16 w)
  | .st => .st (byteAt w 1) (k16 w)
  | .add => .add (byteAt w 1) (byteAt w 2) (byteAt w 3)
  | .sub => .sub (byteAt w 1) (byteAt w 2) (byteAt w 3)
  | .mul => .mul (byteAt w 1) (byteAt w 2) (byteAt w 3)
  | .and => .and (byteAt w 1) (byteAt w 2) (byteAt w 3)
  | .or => .or (byteAt w 1) (byteAt w 2) (byteAt w 3)
  | .not => .not (byteAt w 1)
  | .cmp => .cmp (byteAt w 1) (byteAt w 2)
  | .je => .je (t16 w)
  | .jne => .jne (t16 w)
  | .hlt => .hlt
  | .prn => .prn (byteAt w 1)
  | .nop => .nop

/-- The decode function: byte 0 alone decides the kind, or that the word has an undefined opcode (R81, R82). -/
def decode (m : OpcodeMap) (w : Word) : Except DecodeError Instr :=
  match decodeKind m (byteAt w 0) with
  | some k => .ok (operands k w)
  | none => .error (.undefinedOpcode (byteAt w 0))

/-- The decoder on a list of bytes in image order: the first four are bytes 0 to 3 of the word (R55, R79). -/
def decodeBytes (m : OpcodeMap) (bs : List Byte) : Except DecodeError Instr :=
  match bs with
  | b0 :: b1 :: b2 :: b3 :: _ => decode m (wordOfBytes b0 b1 b2 b3)
  | short => .error (.truncated short.length)

/-! ### The encoder (R79) -/

/-- Layout RI: op, r, k16 mod 256, k16 div 256. -/
def encodeRI (op r : Byte) (k : Half) : Word := wordOfBytes op r (lowByte k) (highByte k)

/-- Layout RRR: op, rd, ra, rb. -/
def encodeRRR (op rd ra rb : Byte) : Word := wordOfBytes op rd ra rb

/-- Layout R: op, r, 0, 0. -/
def encodeR (op r : Byte) : Word := wordOfBytes op r 0#8 0#8

/-- Layout RR: op, ra, rb, 0. -/
def encodeRR (op ra rb : Byte) : Word := wordOfBytes op ra rb 0#8

/-- Layout J: op, t16 mod 256, t16 div 256, 0. -/
def encodeJ (op : Byte) (t : Half) : Word := wordOfBytes op (lowByte t) (highByte t) 0#8

/-- Layout N: op, 0, 0, 0. -/
def encodeN (op : Byte) : Word := wordOfBytes op 0#8 0#8 0#8

/-- The canonical encoding: unused bytes are 0 (R79). -/
def encode (m : OpcodeMap) : Instr → Word
  | .ldi rd imm => encodeRI m.ldi rd imm
  | .ld rd addr => encodeRI m.ld rd addr
  | .st rs addr => encodeRI m.st rs addr
  | .add rd ra rb => encodeRRR m.add rd ra rb
  | .sub rd ra rb => encodeRRR m.sub rd ra rb
  | .mul rd ra rb => encodeRRR m.mul rd ra rb
  | .and rd ra rb => encodeRRR m.and rd ra rb
  | .or rd ra rb => encodeRRR m.or rd ra rb
  | .not rd => encodeR m.not rd
  | .cmp ra rb => encodeRR m.cmp ra rb
  | .je t => encodeJ m.je t
  | .jne t => encodeJ m.jne t
  | .hlt => encodeN m.hlt
  | .prn rs => encodeR m.prn rs
  | .nop => encodeN m.nop

/-- The instruction the decoder reads, under the default opcode map, from an instruction whose bits are `w` (bit 0 the
least significant bit of byte 0) and whose bits at and above `nbits` are 0. -/
def decodeTableWord (nbits w : Nat) : Option Instr :=
  let v := w % 2 ^ nbits
  if v < 2 ^ 32 then
    let word := BitVec.ofNat 32 v
    (decodeBytes defaultOpcodes [byteAt word 0, byteAt word 1, byteAt word 2, byteAt word 3]).toOption
  else none

end Sys2Proof
end

