-- ==== Sys2Proof/Machine/State.lean ====
section
/-! DEFINITION. The state of processor_core (10_state.md): every piece the spec gives it, as plain data, and its value
after reset (R35). -/

namespace Sys2Proof.Machine

/-- The memory as bytes: byte `i` of word `a` is kept under the key `4 * a + i`, its offset in the image file (R54, R55;
log entry 6). The list is in canonical form when `Memory.wf` (Ops.lean) holds. -/
abbrev Memory := List Host.Cell

/-- The run state (R32, 60_exceptions.md R170). -/
inductive RunState where
  | running | halted | faulted
deriving DecidableEq, Repr

/-- The three ways an address can be out of range (R173): `fetch` = 0, `load` = 1, `store` = 2. -/
inductive AccessKind where
  | fetch | load | store
deriving DecidableEq, Repr

/-- The cause of an architectural fault with the info it records (R173, R174). -/
inductive FaultCause where
  /-- Cause 1 (R175). -/
  | undefinedOpcode
  /-- Cause 2: the offending byte and its byte number 1 to 3 (R176). -/
  | registerIndexOutOfRange (index : Byte) (position : Fin 4)
  /-- Cause 3 (R177). -/
  | addressOutOfRange (kind : AccessKind) (addr : Half)
deriving DecidableEq, Repr

/-- The fault record `(cause, opcode, pc, info)` (R32, R174). -/
structure FaultRecord where
  cause  : FaultCause
  /-- `ir[7:0]` when the fault was raised; of no meaning for a fetch fault (R177). -/
  opcode : Byte
  /-- The address of the faulting cycle. -/
  pc     : Half
deriving DecidableEq, Repr

/-- The whole state (10_state.md section 1), with the configuration the step function takes (R11, R38). -/
structure State where
  /-- `MEM_WORDS`, `OPC` and `dbg_en`: no step changes them (log entry 1). -/
  cfg   : Config
  /-- `x[0]` to `x[15]` (R20). -/
  x     : Vector Word 16
  /-- The program counter, a word index (R24). -/
  pc    : Half
  /-- The status word: Z is bit 0, N is bit 1 (R26). UNVERIFIED: two bits are the spec's decision D12; safe (log entry 12). -/
  psw   : BitVec 2
  /-- The instruction register (R29). -/
  ir    : Word
  /-- The memory (R31). -/
  mem   : Memory
  /-- The run state (R32). -/
  run   : RunState
  /-- The fault record, or none (R32). -/
  fault : Option FaultRecord
  /-- The output stream, oldest value first (R30). -/
  out   : List Word
deriving DecidableEq, Repr

/-- A stop of the MODEL. There is none: every fault of this hardware is an architectural event that ends in the state
Faulted (R107, R174), a next state, and the step function is total (R110, R212). The spec's faults are `FaultCause`.
DEDUCED; safe (log entry 7). -/
inductive Fault where
deriving DecidableEq, Repr

/-- Why the model gives an instruction no meaning. -/
inductive Refusal where
  /-- Raised by a refused arm of `exec` for an instruction that has no meaning yet; safe. No arm raises it now. -/
  | notModelled (mnemonic : String)
deriving DecidableEq, Repr

/-- The three outcomes, at this machine's types. -/
abbrev Result := Host.Outcome State Fault Refusal

/-- The configuration `State.reset` carries: the default opcode map (R80, decision D1), `MEM_WORDS` = 65536 (DESIGN CHOICE,
log entry 2: the spec leaves it open) and no debug trace (DESIGN CHOICE, log entry 19). -/
def resetConfig : Config := { memWords := 65536, opc := defaultOpcodes, dbgEn := false }

/-- The state right after reset (R35, R200) under a configuration and an initial memory `MEM_INIT`. UNVERIFIED: the zeros are
the spec's decision D10; unsafe (log entry 5). -/
def State.resetWith (cfg : Config) (memInit : Memory) : State :=
  { cfg := cfg
    x := Vector.replicate 16 0#32
    pc := 0#16
    psw := 0#2
    ir := 0#32
    mem := memInit
    run := .running
    fault := none
    out := [] }

/-- The machine right after reset with nothing loaded: `MEM_INIT` lists no byte (log entry 4). -/
def State.reset : State := State.resetWith resetConfig []

end Sys2Proof.Machine
end

