-- ==== Sys2Proof/Machine/Ops.lean ====
section
/-! DEFINITION. The named operations over memory, registers, run state and program counter that every meaning is made of
(00_scope.md R9), the fetch (40_cycle.md R101), and raising a fault (60_exceptions.md R174). -/

namespace Sys2Proof.Machine

/-! ### Memory: bytes -/

/-- Read one byte. A byte no entry lists reads as `Config.unlistedByte`. -/
def Memory.readByte : Memory → Nat → Byte
  | [], _ => Config.unlistedByte
  | (k, b) :: rest, a => if k = a then b else Memory.readByte rest a

/-- Write one byte, keeping the list sorted; a byte equal to what an unlisted address reads as is not listed. -/
def Memory.writeByte : Memory → Nat → Byte → Memory
  | [], a, v => if v = Config.unlistedByte then [] else [(a, v)]
  | (k, b) :: rest, a, v =>
    if a < k then
      if v = Config.unlistedByte then (k, b) :: rest else (a, v) :: (k, b) :: rest
    else if a = k then
      if v = Config.unlistedByte then rest else (a, v) :: rest
    else (k, b) :: Memory.writeByte rest a v

/-- The list is canonical from the key `lo` on: keys strictly rising and at least `lo`, no entry equal to what an
unlisted byte reads as. -/
def Memory.wfFrom : Nat → Memory → Bool
  | _, [] => true
  | lo, (k, b) :: rest => decide (lo ≤ k) && decide (b ≠ Config.unlistedByte) && Memory.wfFrom (k + 1) rest

/-- The canonical form of a memory. -/
def Memory.wf (m : Memory) : Bool := m.wfFrom 0

/-- Every listed byte lies below the key `n` (R31: the memory has `MEM_WORDS` words and no more). -/
def Memory.below (n : Nat) (m : Memory) : Bool := m.all (fun c => decide (c.1 < n))

/-! ### Memory: words (20_memory.md R54, R57) -/

/-- `MemRead(a, 1)`: the word at word address `a`. Rules that use it check the range first (R52). -/
def Memory.readWord (m : Memory) (a : Nat) : Word :=
  wordOfBytes (m.readByte (4 * a)) (m.readByte (4 * a + 1)) (m.readByte (4 * a + 2)) (m.readByte (4 * a + 3))

/-- `MemWrite(a, 1, w)`: all four bytes of the word at word address `a`. -/
def Memory.writeWord (m : Memory) (a : Nat) (w : Word) : Memory :=
  (((m.writeByte (4 * a) (byteAt w 0)).writeByte (4 * a + 1) (byteAt w 1)).writeByte (4 * a + 2)
    (byteAt w 2)).writeByte (4 * a + 3) (byteAt w 3)

/-! ### One update for each piece of state -/

/-- `x[r]` (R20): no register is hard-wired (R21). -/
def State.reg (s : State) (r : RegIdx) : Word := s.x[r]

/-- `x[r] <- v`. -/
def State.setReg (s : State) (r : RegIdx) (v : Word) : State := { s with x := s.x.set r.val v r.isLt }

/-- `pc <- t`. -/
def State.setPc (s : State) (t : Half) : State := { s with pc := t }

/-- Both flags at once (43_compare_and_jumps.md R151). -/
def State.setPsw (s : State) (p : BitVec 2) : State := { s with psw := p }

/-- `ir <- w`. -/
def State.setIr (s : State) (w : Word) : State := { s with ir := w }

/-- `MemWrite(a, 1, w)` in the state. -/
def State.storeWord (s : State) (a : Nat) (w : Word) : State := { s with mem := s.mem.writeWord a w }

/-- `MemRead(a, 1)` in the state. -/
def State.loadWord (s : State) (a : Nat) : Word := s.mem.readWord a

/-- `emit(v)`: append to the output stream (R30). UNVERIFIED: a list of values is the spec's decision D14; safe (log entry 14). -/
def State.emit (s : State) (v : Word) : State := { s with out := s.out ++ [v] }

/-- `run <- Halted` (44_system.md R160). -/
def State.halt (s : State) : State := { s with run := .halted }

/-- The state a fault leaves: `run <- Faulted`, the record written with the opcode byte of `ir` and the pc of the cycle,
nothing else changed (R107, R174). -/
def State.fail (s : State) (c : FaultCause) : State :=
  { s with run := .faulted, fault := some { cause := c, opcode := byteAt s.ir 0, pc := s.pc } }

/-! ### Taking a fault, and the ways an instruction ends -/

/-- `raise`: the instruction ends in the state Faulted (R9, R174). There is no return from it (R180). -/
def raise (c : FaultCause) (s : State) : Result := .next (s.fail c)

/-- The sequential advance `pc <- (pc + 1) mod 2^16` (R108, R109). UNVERIFIED: the wrap is the spec's decision D7; unsafe with
MEM_WORDS = 65536 (log entry 10). -/
def advance (s : State) : Result := .next (s.setPc (s.pc + 1#16))

/-- The taken jump: `pc <- target`, whatever the target is (R108). -/
def jump (t : Half) (s : State) : Result := .next (s.setPc t)

/-- `HLT` ends the cycle without the advance (R106). -/
def stop (s : State) : Result := .next s.halt

/-! ### Fetch and decode (R101, R102) -/

/-- A word address is in range when it is below `MEM_WORDS` (R52, R53). -/
def State.inRange (s : State) (a : Half) : Bool := decide (a.toNat < s.cfg.memWords)

/-- The fetch: `ir <- mem[pc]`, or none when `pc >= MEM_WORDS`, and then nothing is read or written (R101).
UNVERIFIED: the range check is the spec's decision D6; safe (log entry 9). -/
def fetch (s : State) : Option State :=
  if s.inRange s.pc then some (s.setIr (s.loadWord s.pc.toNat)) else none

/-- The fault of a fetch out of range: `addr` is the pc, `ir` is the old one and so is the opcode recorded (R177,
log entry 20). -/
def raiseFetch (s : State) : Result := raise (.addressOutOfRange .fetch s.pc) s

/-- The fault of an undefined opcode (R175). -/
def raiseUndefinedOpcode (s : State) : Result := raise .undefinedOpcode s

/-- The instruction in `ir` (R102). -/
def decodeIr (s : State) : Except DecodeError Instr := decode s.cfg.opc s.ir

/-- The state with a word placed where the next step fetches, ready to run it: `run` is Running and `fault` none, as a
fetch needs (R100, R32). -/
def placeAtPc (s : State) (w : Word) : State :=
  { s.storeWord s.pc.toNat w with run := .running, fault := none }

end Sys2Proof.Machine
end

