-- ==== Sys2Proof/Machine/Operands.lean ====
section
/-! DEFINITION. The operand forms (30_encoding.md R72 to R78) and the operand check that comes before any effect
(40_cycle.md R104). -/

namespace Sys2Proof.Machine

/-- Take a register byte at byte number `pos`: a byte of 0 to 15 is a register, any other raises
`RegisterIndexOutOfRange` (R84, R104). UNVERIFIED: the spec's decision D8; safe (log entry 8). -/
def withRegister (pos : Fin 4) (b : Byte) (s : State) (effect : RegIdx → Result) : Result :=
  if h : b.toNat < 16 then effect ⟨b.toNat, h⟩ else raise (.registerIndexOutOfRange b pos) s

/-- Take a data address: below `MEM_WORDS`, or `AddressOutOfRange` is raised (R52, R104). UNVERIFIED: the spec's decision D5;
safe (log entry 9). -/
def withAddress (kind : AccessKind) (a : Half) (s : State) (effect : Nat → Result) : Result :=
  if s.inRange a then effect a.toNat else raise (.addressOutOfRange kind a) s

/-- The common form of the five three-register instructions (42_alu.md R130): the three bytes are checked in order, both
sources are read, the destination is written, the pc advances. -/
def threeRegister (f : Word → Word → Word) (rd ra rb : Byte) (s : State) : Result :=
  withRegister 1 rd s fun d =>
    withRegister 2 ra s fun a =>
      withRegister 3 rb s fun b =>
        advance (s.setReg d (f (s.reg a) (s.reg b)))

/-- `zext_32` of a 16-bit immediate (R78): never sign-extended. -/
def zeroExtend (imm : Half) : Word := imm.setWidth 32

end Sys2Proof.Machine
end

