-- ==== Sys2Proof/Machine/Alu.lean ====
section
/-! DEFINITION. Arithmetic and bitwise instructions: ADD, SUB, MUL, AND, OR, NOT (42_alu.md). None writes a flag, none can
fault for an arithmetic reason (R130, R137). -/

namespace Sys2Proof.Machine

/-- `ADD rD, rA, rB` (R131): the sum modulo 2^32. -/
def execAdd (rd ra rb : Byte) (s : State) : Result := threeRegister (fun a b => a + b) rd ra rb s

/-- `SUB rD, rA, rB` (R132): `x[A] - x[B]` modulo 2^32. -/
def execSub (rd ra rb : Byte) (s : State) : Result := threeRegister (fun a b => a - b) rd ra rb s

/-- `MUL rD, rA, rB` (R133): the low 32 bits of the product. -/
def execMul (rd ra rb : Byte) (s : State) : Result := threeRegister (fun a b => a * b) rd ra rb s

/-- `AND rD, rA, rB` (R134). -/
def execAnd (rd ra rb : Byte) (s : State) : Result := threeRegister (fun a b => a &&& b) rd ra rb s

/-- `OR rD, rA, rB` (R135). -/
def execOr (rd ra rb : Byte) (s : State) : Result := threeRegister (fun a b => a ||| b) rd ra rb s

/-- `NOT rD` (R136): `x[D]` complemented in place. -/
def execNot (rd : Byte) (s : State) : Result :=
  withRegister 1 rd s fun d => advance (s.setReg d (~~~ (s.reg d)))

end Sys2Proof.Machine
end

