-- ==== Sys2Proof/Machine/Flags.lean ====
section
/-! DEFINITION. The flag logic (43_compare_and_jumps.md R150, R151; 10_state.md R26, R27). -/

namespace Sys2Proof.Machine

/-- The zero flag of a comparison: the operands are equal (R151). -/
def compareZ (a b : Word) : Bool := a == b

/-- The negative flag of a comparison: the first operand is UNSIGNED-less-than the second (R151).
UNVERIFIED: the spec's decision D13; unsafe (log entry 13). -/
def compareN (a b : Word) : Bool := a.ult b

/-- The status word `{N, Z}` from its flags: N is bit 1, Z is bit 0 (R26). -/
def packFlags (n z : Bool) : BitVec 2 := BitVec.ofBool n ++ BitVec.ofBool z

/-- The status word a comparison leaves: both flags written (R150, R151). -/
def compareFlags (a b : Word) : BitVec 2 := packFlags (compareN a b) (compareZ a b)

/-- `psw.Z`, bit 0 of the status word (R26). -/
def State.zFlag (s : State) : Bool := s.psw.getLsbD 0

/-- `psw.N`, bit 1 of the status word (R26). No instruction reads it (R27). -/
def State.nFlag (s : State) : Bool := s.psw.getLsbD 1

end Sys2Proof.Machine
end

