-- ==== Sys2Proof/Machine/CompareJump.lean ====
section
/-! DEFINITION. Compare and conditional jumps: CMP, JE, JNE (43_compare_and_jumps.md). -/

namespace Sys2Proof.Machine

/-- `CMP rA, rB` (R151): both flags are written, nothing else. -/
def execCmp (ra rb : Byte) (s : State) : Result :=
  withRegister 1 ra s fun a =>
    withRegister 2 rb s fun b => advance (s.setPsw (compareFlags (s.reg a) (s.reg b)))

/-- `JE target` (R152): taken iff Z = 1. -/
def execJe (target : Half) (s : State) : Result := if s.zFlag then jump target s else advance s

/-- `JNE target` (R153): taken iff Z = 0. -/
def execJne (target : Half) (s : State) : Result := if s.zFlag then advance s else jump target s

end Sys2Proof.Machine
end

