-- ==== Sys2Proof/Machine/DataMovement.lean ====
section
/-! DEFINITION. Data movement: LDI, LD, ST (41_data_movement.md). -/

namespace Sys2Proof.Machine

/-- `LDI rD, imm` (R120): `x[D] <- zext_32(imm)`. -/
def execLdi (rd : Byte) (imm : Half) (s : State) : Result :=
  withRegister 1 rd s fun d => advance (s.setReg d (zeroExtend imm))

/-- `LD rD, [addr]` (R121): the register check, the address check, then `x[D] <- mem[addr]`. -/
def execLd (rd : Byte) (addr : Half) (s : State) : Result :=
  withRegister 1 rd s fun d =>
    withAddress .load addr s fun a => advance (s.setReg d (s.loadWord a))

/-- `ST rS, [addr]` (R122): the register check, the address check, then `mem[addr] <- x[S]`. -/
def execSt (rs : Byte) (addr : Half) (s : State) : Result :=
  withRegister 1 rs s fun r =>
    withAddress .store addr s fun a => advance (s.storeWord a (s.reg r))

end Sys2Proof.Machine
end

