-- ==== Sys2Proof/Machine/System.lean ====
section
/-! DEFINITION. System instructions: HLT, PRN, NOP (44_system.md). -/

namespace Sys2Proof.Machine

/-- `HLT` (R160): `run <- Halted`; the pc is not advanced. -/
def execHlt (s : State) : Result := stop s

/-- `PRN rS` (R161): the value of the register is appended to the output stream. -/
def execPrn (rs : Byte) (s : State) : Result :=
  withRegister 1 rs s fun r => advance (s.emit (s.reg r))

/-- `NOP` (R162): the advance only. -/
def execNop (s : State) : Result := advance s

end Sys2Proof.Machine
end

