-- ==== Sys2Proof/Machine/Dispatch.lean ====
section
/-! DEFINITION. Phase (d) and (e) of the cycle (40_cycle.md R105, R108): one arm per instruction. -/

namespace Sys2Proof.Machine

def exec (i : Instr) (s : State) : Host.Outcome State Fault Refusal :=
  match i with
  | .ldi rd imm => Sys2Proof.Machine.execLdi rd imm s
  | .ld rd addr => Sys2Proof.Machine.execLd rd addr s
  | .st rs addr => Sys2Proof.Machine.execSt rs addr s
  | .add rd ra rb => Sys2Proof.Machine.execAdd rd ra rb s
  | .sub rd ra rb => Sys2Proof.Machine.execSub rd ra rb s
  | .mul rd ra rb => Sys2Proof.Machine.execMul rd ra rb s
  | .and rd ra rb => Sys2Proof.Machine.execAnd rd ra rb s
  | .or rd ra rb => Sys2Proof.Machine.execOr rd ra rb s
  | .not rd => Sys2Proof.Machine.execNot rd s
  | .cmp ra rb => Sys2Proof.Machine.execCmp ra rb s
  | .je target => Sys2Proof.Machine.execJe target s
  | .jne target => Sys2Proof.Machine.execJne target s
  | .hlt => Sys2Proof.Machine.execHlt s
  | .prn rs => Sys2Proof.Machine.execPrn rs s
  | .nop => Sys2Proof.Machine.execNop s

end Sys2Proof.Machine
end

