-- ==== Sys2Proof/Machine/Step.lean ====
section
/-! DEFINITION. The step function (40_cycle.md R110) and the placing of a word where the next step fetches. -/

namespace Sys2Proof.Machine

/-- One cycle in the state Running: fetch, decode, execute and advance, in that order (R100). The trace point between
decode and execute changes no state (R103); it is `dbgPort` in Ports.lean. -/
def cycle (s : State) : Host.Outcome State Fault Refusal :=
  match fetch s with
  | none => raiseFetch s
  | some fetched =>
    match decodeIr fetched with
    | .ok i => exec i fetched
    | .error _ => raiseUndefinedOpcode fetched

/-- One step (R110): a cycle when Running, the identity when Halted or Faulted (60_exceptions.md R171). -/
def step (s : State) : Host.Outcome State Fault Refusal :=
  match s.run with
  | .running => cycle s
  | .halted => .next s
  | .faulted => .next s

/-- `s` with the instruction whose bits are `w` (`nbits` of them, the rest 0) stored at the word the next step fetches,
and Running with no fault record, so that the next step runs it (log entry 21). -/
def State.withFetchWord (s : State) (nbits w : Nat) : State := placeAtPc s (BitVec.ofNat 32 (w % 2 ^ nbits))

end Sys2Proof.Machine
end

