-- ==== Sys2Proof/Machine/HostActs.lean ====
section
/-! DEFINITION. What the host does to the core outside its steps: reset (70_reset_and_hazards.md R200, R202) and loading
an image before the run (R203, R204; 20_memory.md R55), and what it makes of the result (R161, R187). -/

namespace Sys2Proof.Machine

/-- The reset input `rst` (R202): every register returns to its value of R35; the core neither clears nor restores the
memory, and the configuration is the host's. UNVERIFIED: the spec's decision D16; safe (log entry 16). -/
def hostReset (s : State) : State := State.resetWith s.cfg s.mem

/-- The bytes of an image from the byte offset `at0` on, as canonical memory: image byte `n` is listed under the key `n`
(R54 item 4, R55). -/
def imageFrom : Nat → List Byte → Memory
  | _, [] => []
  | at0, b :: rest =>
    if b = Config.unlistedByte then imageFrom (at0 + 1) rest else (at0, b) :: imageFrom (at0 + 1) rest

/-- `MEM_INIT` of an image loaded at memory address 0 (R55); what the image does not fill reads as unlisted (log entry 4). -/
def memInit (image : List Byte) : Memory := imageFrom 0 image

/-- The host's size check: an image of `L` bytes is accepted iff `L <= 4 * MEM_WORDS` (R204). -/
def imageFits (cfg : Config) (image : List Byte) : Bool := decide (image.length ≤ 4 * cfg.memWords)

/-- Load an image and release reset (R203): the state before the first step, or none for an oversized image (R204) and
for a length that is no whole number of words, which the source does not speak of (DESIGN CHOICE; safe, log entry 22). -/
def boot (cfg : Config) (image : List Byte) : Option State :=
  if imageFits cfg image && decide (image.length % 4 = 0) then some (State.resetWith cfg (memInit image)) else none

/-- What the host makes of the end of a run (60_exceptions.md R187). -/
inductive HostOutcome where
  /-- Exit code 0. -/
  | normal
  /-- A non-zero exit, its value unspecified, after the opcode and the pc of the fault are reported. -/
  | abnormal (opcode : Byte) (pc : Half)
deriving DecidableEq, Repr

/-- The outcome of an ended run, or none while it is Running or if a Faulted state had no record (R187). -/
def hostOutcome (s : State) : Option HostOutcome :=
  match s.run, s.fault with
  | .halted, _ => some .normal
  | .faulted, some r => some (.abnormal r.opcode r.pc)
  | .faulted, none => none
  | .running, _ => none

/-- The host's rendering of a printed value: the unsigned decimal numeral, no leading zeros (44_system.md R161). -/
def renderValue (v : Word) : String := toString v.toNat

end Sys2Proof.Machine
end

