-- ==== Sys2Proof/Machine/Ports.lean ====
section
/-! DEFINITION. The output ports of the core (10_state.md R37) as views of the state: the debug observation port
(60_exceptions.md R186), the print port (44_system.md R161) and the fault port with its codes (R173). They change no state. -/

namespace Sys2Proof.Machine

/-- What the observation port shows at the trace point (R186). -/
structure DbgSample where
  /-- `dbg_kind`, the kind just decoded. -/
  kind : Kind
  /-- `dbg_ir`, the bytes 0 to 3 of `ir` in that order. -/
  ir   : List Byte
  /-- `dbg_psw`, N the more significant bit. -/
  psw  : BitVec 2
  /-- `dbg_x`. -/
  x    : Vector Word 16
deriving DecidableEq, Repr

/-- The sample of a state that holds the fetched word, for the kind decoded from it. -/
def dbgSample (k : Kind) (s : State) : DbgSample :=
  { kind := k, ir := [byteAt s.ir 0, byteAt s.ir 1, byteAt s.ir 2, byteAt s.ir 3], psw := s.psw, x := s.x }

/-- The observation the next step exposes: after a successful decode and before execute, only with `dbg_en` set and the
core Running (40_cycle.md R103). -/
def dbgPort (s : State) : Option DbgSample :=
  if s.cfg.dbgEn && decide (s.run = .running) then
    (fetch s).bind fun fetched =>
      (decodeKind fetched.cfg.opc (byteAt fetched.ir 0)).map fun k => dbgSample k fetched
  else none

/-- `out_valid` and `out_data` of the next step: the value a `PRN` with a legal register emits (R37, R161). -/
def outPort (s : State) : Option Word :=
  if s.run = .running then
    (fetch s).bind fun fetched =>
      match decodeIr fetched with
      | .ok (.prn rs) => if h : rs.toNat < 16 then some (s.reg ⟨rs.toNat, h⟩) else none
      | _ => none
  else none

/-- The `fault` output, valid when `run` is Faulted (R37). -/
def faultPort (s : State) : Option FaultRecord := if s.run = .faulted then s.fault else none

/-- The cause code (R173, the spec's decision D20). -/
def FaultCause.code : FaultCause → Nat
  | .undefinedOpcode => 1
  | .registerIndexOutOfRange _ _ => 2
  | .addressOutOfRange _ _ => 3

/-- The code of an access kind (R173, the spec's decision D20). -/
def AccessKind.code : AccessKind → Nat
  | .fetch => 0
  | .load => 1
  | .store => 2

end Sys2Proof.Machine
end

