-- ==== Sys2Proof/Safety.lean ====
section
/-! DEFINITION. The terms claims are stated in: the invariant of the machine, what is left unchanged (frames), the entry
into Faulted, the fault a cycle meets first, and runs that never fault. -/

namespace Sys2Proof.Machine

/-! ### The invariant -/

/-- What every state a run reaches satisfies. -/
structure State.Inv (s : State) : Prop where
  /-- The configuration meets the spec's constraints (20_memory.md R51, 30_encoding.md R80). -/
  config : s.cfg.wf = true
  /-- The memory is canonical (log entry 6). -/
  memory : s.mem.wf = true
  /-- No byte is listed at or beyond the capacity (10_state.md R31). -/
  capacity : s.mem.below (4 * s.cfg.memWords) = true
  /-- The status word is never 0b11 (10_state.md R26, R27). -/
  flags : s.psw ≠ 3#2
  /-- There is a fault record exactly in Faulted (10_state.md R32). -/
  record : s.run = .faulted ↔ s.fault.isSome = true
  /-- A fault record names the pc and the opcode byte of `ir`, which stay as they were (60_exceptions.md R171, R174). -/
  recordNow : ∀ r, s.fault = some r → r.pc = s.pc ∧ r.opcode = s.ir.setWidth 8

/-! ### Frames -/

/-- Every general register is unchanged. -/
def SameRegs (s t : State) : Prop := ∀ r : RegIdx, t.reg r = s.reg r

/-- Every general register but `d` is unchanged. -/
def SameRegsBut (d : RegIdx) (s t : State) : Prop := ∀ r : RegIdx, r ≠ d → t.reg r = s.reg r

/-- Every byte of memory reads as before. -/
def SameBytes (s t : State) : Prop := ∀ k : Nat, t.mem.readByte k = s.mem.readByte k

/-- Every byte of memory outside the word at the word address `a` reads as before. -/
def SameBytesOutside (a : Nat) (s t : State) : Prop :=
  ∀ k : Nat, k < 4 * a ∨ 4 * a + 4 ≤ k → t.mem.readByte k = s.mem.readByte k

/-- The configuration, the instruction register, the run state and the fault record are unchanged. -/
def SameControl (s t : State) : Prop := t.cfg = s.cfg ∧ t.ir = s.ir ∧ t.run = s.run ∧ t.fault = s.fault

/-- The sequential advance (40_cycle.md R108, R109). -/
def PcAdvanced (s t : State) : Prop := t.pc.toNat = (s.pc.toNat + 1) % 2 ^ 16

/-- The frame of an instruction that writes the general register `d`: nothing but `x[d]` and the pc changes. -/
def OnlyRegister (d : RegIdx) (s t : State) : Prop :=
  SameRegsBut d s t ∧ SameBytes s t ∧ t.psw = s.psw ∧ t.out = s.out ∧ SameControl s t

/-- The frame of an instruction that stores to the word address `a`: nothing but that word and the pc changes. -/
def OnlyWord (a : Nat) (s t : State) : Prop :=
  SameRegs s t ∧ SameBytesOutside a s t ∧ t.psw = s.psw ∧ t.out = s.out ∧ SameControl s t

/-- The frame of an instruction that writes the flags: nothing but the status word and the pc changes. -/
def OnlyFlags (s t : State) : Prop := SameRegs s t ∧ SameBytes s t ∧ t.out = s.out ∧ SameControl s t

/-- The frame of an instruction that emits a value: nothing but the output stream and the pc changes. -/
def OnlyOutput (s t : State) : Prop := SameRegs s t ∧ SameBytes s t ∧ t.psw = s.psw ∧ SameControl s t

/-- The frame of a jump or a no-op: nothing but the pc changes. -/
def OnlyPc (s t : State) : Prop :=
  SameRegs s t ∧ SameBytes s t ∧ t.psw = s.psw ∧ t.out = s.out ∧ SameControl s t

/-- The frame of `HLT`: nothing but the run state changes, the pc stays. -/
def OnlyRun (s t : State) : Prop :=
  SameRegs s t ∧ SameBytes s t ∧ t.psw = s.psw ∧ t.out = s.out ∧ t.pc = s.pc ∧ t.cfg = s.cfg ∧ t.ir = s.ir ∧
    t.fault = s.fault

/-! ### Faults -/

/-- `t` is what a fault with the cause `c`, raised in `s`, leaves (60_exceptions.md R174): Faulted, the record with the
opcode byte of `ir` and the pc of the cycle, and nothing else changed. -/
structure FaultEntry (c : FaultCause) (s t : State) : Prop where
  run    : t.run = .faulted
  fault  : t.fault = some { cause := c, opcode := s.ir.setWidth 8, pc := s.pc }
  regs   : SameRegs s t
  bytes  : SameBytes s t
  psw    : t.psw = s.psw
  pc     : t.pc = s.pc
  ir     : t.ir = s.ir
  out    : t.out = s.out
  cfg    : t.cfg = s.cfg

/-- An instruction whose first offending register byte is `b` at byte number `p` takes the fault
`RegisterIndexOutOfRange(b, p)` (30_encoding.md R84, 60_exceptions.md R176). -/
def FaultsOnBadRegister (i : Instr) : Prop :=
  ∀ (s : State) (p : Fin 4) (b : Byte), i.firstBadRegister = some (p, b) →
    ∃ t, exec i s = .next t ∧ FaultEntry (.registerIndexOutOfRange b p) s t

/-- The data address of `LD` and `ST` with the kind of access; the other instructions access no data (R104). -/
def dataAccess : Instr → Option (AccessKind × Half)
  | .ld _ addr => some (.load, addr)
  | .st _ addr => some (.store, addr)
  | .ldi _ _ | .add _ _ _ | .sub _ _ _ | .mul _ _ _ | .and _ _ _ | .or _ _ _ | .not _ | .cmp _ _ | .je _ | .jne _
  | .hlt | .prn _ | .nop => none

/-- The fault of the operand check of an instruction: the first bad register byte, else a data address at or beyond the
capacity, else none (40_cycle.md R104). -/
def operandFault (memWords : Nat) (i : Instr) : Option FaultCause :=
  match i.firstBadRegister with
  | some (p, b) => some (.registerIndexOutOfRange b p)
  | none =>
    match dataAccess i with
    | some (kind, a) => if memWords ≤ a.toNat then some (.addressOutOfRange kind a) else none
    | none => none

/-- The word the cycle of `s` fetches (R101), where the pc is in range. -/
def fetchedWord (s : State) : Word := s.mem.readWord s.pc.toNat

/-- The first fault the cycle of a Running state meets, in the order of 60_exceptions.md R179, or none. -/
def faultOfCycle (s : State) : Option FaultCause :=
  if s.cfg.memWords ≤ s.pc.toNat then some (.addressOutOfRange .fetch s.pc)
  else
    match decode s.cfg.opc (fetchedWord s) with
    | .error _ => some .undefinedOpcode
    | .ok i => operandFault s.cfg.memWords i

/-- The pc after an instruction other than `HLT` that meets no fault (40_cycle.md R108): the target of a taken jump, else
the pc plus one modulo 2^16. -/
def nextPc (i : Instr) (s : State) : Half :=
  match i with
  | .je target => if s.psw.getLsbD 0 = true then target else s.pc + 1#16
  | .jne target => if s.psw.getLsbD 0 = false then target else s.pc + 1#16
  | .ldi _ _ | .ld _ _ | .st _ _ | .add _ _ _ | .sub _ _ _ | .mul _ _ _ | .and _ _ _ | .or _ _ _ | .not _ | .cmp _ _
  | .hlt | .prn _ | .nop => s.pc + 1#16

/-! ### Runs -/

/-- The run from `s` meets no fault in its first `k` steps. -/
def RunsSafely (k : Nat) (s : State) : Prop :=
  ∀ j ≤ k, ∃ t, Host.Core.run core j s = .next t ∧ t.run ≠ .faulted

/-- The debug toggle set to `b` (60_exceptions.md R186). -/
def State.withDbg (b : Bool) (s : State) : State := { s with cfg := { s.cfg with dbgEn := b } }

end Sys2Proof.Machine
end

