-- ==== Sys2Proof/Certificates/Slice0/Obligations.lean ====
section
/-! DEFINITION. The statements for the provers, from the numbered rules of spec/. `regByte r` ranges over exactly the legal
register bytes 0 to 15; the bytes above them are covered by the fault clauses. -/

open Sys2Proof Sys2Proof.Machine

/-- For every injective opcode map and every instruction, with every operand at every value its field admits (register
bytes 0 to 255, 16-bit fields 0 to 65535), decode (encode i) is i. Rests on 30_encoding.md section 3 (the encoding
function); 30_encoding.md section 4 (the decode function). -/
def Obligations.DecodeUndoesEncode : Prop :=
  ∀ (m : OpcodeMap) (i : Instr), m.injective = true → decode m (encode m i) = .ok i

/-- For every opcode map, if a word decodes to i, then byte n of the canonical encoding of i is byte n of the word
where the layout of i uses it, and 0 where it does not. Rests on 30_encoding.md section 2 (the six layouts);
30_encoding.md section 3 (the encoding function). -/
def Obligations.EncodeOfDecodeKeepsUsedBytes : Prop :=
  ∀ (m : OpcodeMap) (w : Word) (i : Instr), decode m w = .ok i →
    ∀ n < 4, byteAt (encode m i) n = if n < i.kind.usedBytes then byteAt w n else 0#8

/-- If byte 0 of a word is the opcode of a kind and a second word agrees with it on the bytes that kind's layout uses,
both decode to the same instruction, whatever the unused bytes hold, and executing it with either word in ir leaves
the same state but for ir itself (the spec's decision D9, stated by the rule). States R83. -/
def Obligations.UnusedBytesNeverMatter : Prop :=
  ∀ (m : OpcodeMap) (w w' : Word) (k : Kind), decodeKind m (byteAt w 0) = some k →
    (∀ n < k.usedBytes, byteAt w' n = byteAt w n) → ∃ i, decode m w = .ok i ∧ decode m w' = .ok i ∧
      ∀ s t : State, exec i { s with ir := w } = .next t → exec i { s with ir := w' } = .next { t with ir := w' }

/-- Under an injective opcode map a word decodes to an instruction of kind k exactly when byte 0 is OPC(k); where byte
0 is no kind's opcode, the word is an undefined opcode; and words with the same byte 0 have the same kind or are both
undefined. States R81. -/
def Obligations.FirstByteAloneSelectsTheInstruction : Prop :=
  (∀ (m : OpcodeMap) (w : Word) (k : Kind), m.injective = true →
    ((∃ i, decode m w = .ok i ∧ i.kind = k) ↔ m.opcode k = w.setWidth 8)) ∧
  (∀ (m : OpcodeMap) (w : Word), (∀ k, m.opcode k ≠ w.setWidth 8) →
    decode m w = .error (.undefinedOpcode (w.setWidth 8))) ∧
  (∀ (m : OpcodeMap) (w w' : Word), w.setWidth 8 = w'.setWidth 8 →
    ((∃ i, decode m w = .ok i) ↔ (∃ i, decode m w' = .ok i)))

/-- Each of the ten words of the spec's table of worked encodings, put together from its four image bytes, decodes
under the default opcode map to the instruction beside it, and is that instruction's encoding (the opcode values are
the spec's decision D1). Rests on 30_encoding.md section 6 (the table of worked encodings). -/
def Obligations.WorkedEncodingsDecode : Prop :=
  ∀ p ∈ ([(0x00050001#32, [0x01#8, 0x00#8, 0x05#8, 0x00#8], .ldi 0#8 5#16),
          (0x12340302#32, [0x02#8, 0x03#8, 0x34#8, 0x12#8], .ld 3#8 0x1234#16),
          (0x00FF0F03#32, [0x03#8, 0x0F#8, 0xFF#8, 0x00#8], .st 15#8 0x00FF#16),
          (0x01000204#32, [0x04#8, 0x02#8, 0x00#8, 0x01#8], .add 2#8 0#8 1#8),
          (0x00000709#32, [0x09#8, 0x07#8, 0x00#8, 0x00#8], .not 7#8),
          (0x0009040A#32, [0x0A#8, 0x04#8, 0x09#8, 0x00#8], .cmp 4#8 9#8),
          (0x0001020B#32, [0x0B#8, 0x02#8, 0x01#8, 0x00#8], .je 0x0102#16),
          (0x0000000D#32, [0x0D#8, 0x00#8, 0x00#8, 0x00#8], .hlt),
          (0x0000020E#32, [0x0E#8, 0x02#8, 0x00#8, 0x00#8], .prn 2#8),
          (0x0000000F#32, [0x0F#8, 0x00#8, 0x00#8, 0x00#8], .nop)] : List (Word × List Byte × Instr)),
    decode defaultOpcodes p.1 = .ok p.2.2 ∧ decodeBytes defaultOpcodes p.2.1 = .ok p.2.2 ∧
      encode defaultOpcodes p.2.2 = p.1

/-- LDI: the word under the default opcode map (the spec's decisions D1, D3), x[D] becomes the 16-bit immediate zero-
extended, the pc advances, nothing else changes; a register byte above 15 takes the fault RegisterIndexOutOfRange
instead (the spec's decision D8). States R120. -/
def Obligations.LdiLoadsZeroExtendedImmediate : Prop :=
  (∀ w : Word, w.toNat % 256 = 0x01 → decode defaultOpcodes w = .ok (.ldi (w.extractLsb' 8 8) (w.extractLsb' 16 16))) ∧
  (∀ (rd : Byte) (imm : Half),
    (encode defaultOpcodes (.ldi rd imm)).toNat = 0x01 + 2 ^ 8 * rd.toNat + 2 ^ 16 * imm.toNat) ∧
  (∀ (s : State) (d : RegIdx) (imm : Half), ∃ t, exec (.ldi (regByte d) imm) s = .next t ∧
    (t.reg d).toNat = imm.toNat ∧ PcAdvanced s t ∧ OnlyRegister d s t) ∧
  (∀ (rd : Byte) (imm : Half), FaultsOnBadRegister (.ldi rd imm))

/-- LD: the word under the default opcode map (the spec's decisions D1, D3), with the address below MEM_WORDS x[D]
becomes the word of memory there, the pc advances, nothing else changes; an address at or beyond MEM_WORDS takes
AddressOutOfRange(load) (decision D5); a register byte above 15 takes the fault RegisterIndexOutOfRange instead (the
spec's decision D8). States R121. -/
def Obligations.LdLoadsTheWordAtTheAddress : Prop :=
  (∀ w : Word, w.toNat % 256 = 0x02 → decode defaultOpcodes w = .ok (.ld (w.extractLsb' 8 8) (w.extractLsb' 16 16))) ∧
  (∀ (rd : Byte) (addr : Half),
    (encode defaultOpcodes (.ld rd addr)).toNat = 0x02 + 2 ^ 8 * rd.toNat + 2 ^ 16 * addr.toNat) ∧
  (∀ (s : State) (d : RegIdx) (addr : Half), addr.toNat < s.cfg.memWords →
    ∃ t, exec (.ld (regByte d) addr) s = .next t ∧
      (t.reg d).toNat = (s.mem.readByte (4 * addr.toNat)).toNat + 2 ^ 8 * (s.mem.readByte (4 * addr.toNat + 1)).toNat +
        2 ^ 16 * (s.mem.readByte (4 * addr.toNat + 2)).toNat + 2 ^ 24 * (s.mem.readByte (4 * addr.toNat + 3)).toNat ∧
      PcAdvanced s t ∧ OnlyRegister d s t) ∧
  (∀ (s : State) (d : RegIdx) (addr : Half), s.cfg.memWords ≤ addr.toNat →
    ∃ t, exec (.ld (regByte d) addr) s = .next t ∧ FaultEntry (.addressOutOfRange .load addr) s t) ∧
  (∀ (rd : Byte) (addr : Half), FaultsOnBadRegister (.ld rd addr))

/-- ST: the word under the default opcode map (the spec's decisions D1, D3), with the address below MEM_WORDS the four
bytes of x[S] are stored there, least significant first (read back where the memory is canonical), every other byte
reads as before, the pc advances, nothing else changes; an address at or beyond MEM_WORDS takes
AddressOutOfRange(store) (decision D5); a register byte above 15 takes the fault RegisterIndexOutOfRange instead (the
spec's decision D8). States R122. -/
def Obligations.StStoresTheRegisterAtTheAddress : Prop :=
  (∀ w : Word, w.toNat % 256 = 0x03 → decode defaultOpcodes w = .ok (.st (w.extractLsb' 8 8) (w.extractLsb' 16 16))) ∧
  (∀ (rs : Byte) (addr : Half),
    (encode defaultOpcodes (.st rs addr)).toNat = 0x03 + 2 ^ 8 * rs.toNat + 2 ^ 16 * addr.toNat) ∧
  (∀ (s : State) (r : RegIdx) (addr : Half), addr.toNat < s.cfg.memWords →
    ∃ t, exec (.st (regByte r) addr) s = .next t ∧
      (s.mem.wf = true → ∀ n < 4,
        (t.mem.readByte (4 * addr.toNat + n)).toNat = (s.reg r).toNat / 2 ^ (8 * n) % 2 ^ 8) ∧
      PcAdvanced s t ∧ OnlyWord addr.toNat s t) ∧
  (∀ (s : State) (r : RegIdx) (addr : Half), s.cfg.memWords ≤ addr.toNat →
    ∃ t, exec (.st (regByte r) addr) s = .next t ∧ FaultEntry (.addressOutOfRange .store addr) s t) ∧
  (∀ (rs : Byte) (addr : Half), FaultsOnBadRegister (.st rs addr))

/-- ADD: x[D] becomes (x[A] + x[B]) mod 2^32; the word under the default opcode map (the spec's decisions D1, D3), the
pc advances, no flag and nothing else changes, for every choice of the three registers; a register byte above 15 takes
the fault RegisterIndexOutOfRange instead (the spec's decision D8). States R131. -/
def Obligations.AddWritesTheSumModulo2Pow32 : Prop :=
  (∀ w : Word, w.toNat % 256 = 0x04 → decode defaultOpcodes w = .ok (.add (w.extractLsb' 8 8) (w.extractLsb' 16 8) (w.extractLsb' 24 8))) ∧
  (∀ rd ra rb : Byte, (encode defaultOpcodes (.add rd ra rb)).toNat =
    0x04 + 2 ^ 8 * rd.toNat + 2 ^ 16 * ra.toNat + 2 ^ 24 * rb.toNat) ∧
  (∀ (s : State) (d a b : RegIdx), ∃ t, exec (.add (regByte d) (regByte a) (regByte b)) s = .next t ∧
    (t.reg d).toNat = ((s.reg a).toNat + (s.reg b).toNat) % 2 ^ 32 ∧ PcAdvanced s t ∧ OnlyRegister d s t) ∧
  (∀ rd ra rb : Byte, FaultsOnBadRegister (.add rd ra rb))

/-- SUB: x[D] becomes x[A] - x[B] if x[A] >= x[B], else 2^32 + x[A] - x[B]; the word under the default opcode map (the
spec's decisions D1, D3), the pc advances, no flag and nothing else changes, for every choice of the three registers;
a register byte above 15 takes the fault RegisterIndexOutOfRange instead (the spec's decision D8). States R132. -/
def Obligations.SubWritesTheDifferenceModulo2Pow32 : Prop :=
  (∀ w : Word, w.toNat % 256 = 0x05 → decode defaultOpcodes w = .ok (.sub (w.extractLsb' 8 8) (w.extractLsb' 16 8) (w.extractLsb' 24 8))) ∧
  (∀ rd ra rb : Byte, (encode defaultOpcodes (.sub rd ra rb)).toNat =
    0x05 + 2 ^ 8 * rd.toNat + 2 ^ 16 * ra.toNat + 2 ^ 24 * rb.toNat) ∧
  (∀ (s : State) (d a b : RegIdx), ∃ t, exec (.sub (regByte d) (regByte a) (regByte b)) s = .next t ∧
    (t.reg d).toNat = (if (s.reg b).toNat ≤ (s.reg a).toNat then (s.reg a).toNat - (s.reg b).toNat
      else 2 ^ 32 + (s.reg a).toNat - (s.reg b).toNat) ∧ PcAdvanced s t ∧ OnlyRegister d s t) ∧
  (∀ rd ra rb : Byte, FaultsOnBadRegister (.sub rd ra rb))

/-- MUL: x[D] becomes (x[A] * x[B]) mod 2^32 (the low-half reading is the spec's own inference, 'the low 32 bits of
the 64-bit product'); the word under the default opcode map (the spec's decisions D1, D3), the pc advances, no flag
and nothing else changes, for every choice of the three registers; a register byte above 15 takes the fault
RegisterIndexOutOfRange instead (the spec's decision D8). Rests on 42_alu.md section 2 (MUL). -/
def Obligations.MulWritesTheLowHalfOfTheProduct : Prop :=
  (∀ w : Word, w.toNat % 256 = 0x06 → decode defaultOpcodes w = .ok (.mul (w.extractLsb' 8 8) (w.extractLsb' 16 8) (w.extractLsb' 24 8))) ∧
  (∀ rd ra rb : Byte, (encode defaultOpcodes (.mul rd ra rb)).toNat =
    0x06 + 2 ^ 8 * rd.toNat + 2 ^ 16 * ra.toNat + 2 ^ 24 * rb.toNat) ∧
  (∀ (s : State) (d a b : RegIdx), ∃ t, exec (.mul (regByte d) (regByte a) (regByte b)) s = .next t ∧
    (t.reg d).toNat = ((s.reg a).toNat * (s.reg b).toNat) % 2 ^ 32 ∧ PcAdvanced s t ∧ OnlyRegister d s t) ∧
  (∀ rd ra rb : Byte, FaultsOnBadRegister (.mul rd ra rb))

/-- AND: bit n of x[D] becomes 1 iff bit n of both sources is 1, for n in 0..31; the word under the default opcode map
(the spec's decisions D1, D3), the pc advances, no flag and nothing else changes, for every choice of the three
registers; a register byte above 15 takes the fault RegisterIndexOutOfRange instead (the spec's decision D8). States
R134. -/
def Obligations.AndWritesTheBitwiseAnd : Prop :=
  (∀ w : Word, w.toNat % 256 = 0x07 → decode defaultOpcodes w = .ok (.and (w.extractLsb' 8 8) (w.extractLsb' 16 8) (w.extractLsb' 24 8))) ∧
  (∀ rd ra rb : Byte, (encode defaultOpcodes (.and rd ra rb)).toNat =
    0x07 + 2 ^ 8 * rd.toNat + 2 ^ 16 * ra.toNat + 2 ^ 24 * rb.toNat) ∧
  (∀ (s : State) (d a b : RegIdx), ∃ t, exec (.and (regByte d) (regByte a) (regByte b)) s = .next t ∧
    (∀ n < 32, (t.reg d).getLsbD n = ((s.reg a).getLsbD n && (s.reg b).getLsbD n)) ∧ PcAdvanced s t ∧ OnlyRegister d s t) ∧
  (∀ rd ra rb : Byte, FaultsOnBadRegister (.and rd ra rb))

/-- OR: bit n of x[D] becomes 1 iff bit n of a source is 1, for n in 0..31; the word under the default opcode map (the
spec's decisions D1, D3), the pc advances, no flag and nothing else changes, for every choice of the three registers;
a register byte above 15 takes the fault RegisterIndexOutOfRange instead (the spec's decision D8). States R135. -/
def Obligations.OrWritesTheBitwiseOr : Prop :=
  (∀ w : Word, w.toNat % 256 = 0x08 → decode defaultOpcodes w = .ok (.or (w.extractLsb' 8 8) (w.extractLsb' 16 8) (w.extractLsb' 24 8))) ∧
  (∀ rd ra rb : Byte, (encode defaultOpcodes (.or rd ra rb)).toNat =
    0x08 + 2 ^ 8 * rd.toNat + 2 ^ 16 * ra.toNat + 2 ^ 24 * rb.toNat) ∧
  (∀ (s : State) (d a b : RegIdx), ∃ t, exec (.or (regByte d) (regByte a) (regByte b)) s = .next t ∧
    (∀ n < 32, (t.reg d).getLsbD n = ((s.reg a).getLsbD n || (s.reg b).getLsbD n)) ∧ PcAdvanced s t ∧ OnlyRegister d s t) ∧
  (∀ rd ra rb : Byte, FaultsOnBadRegister (.or rd ra rb))

/-- NOT: the word under the default opcode map (the spec's decisions D1, D3), bytes 2 and 3 are ignored; x[D] becomes
0xFFFFFFFF minus its old value, the pc advances, nothing else changes; a register byte above 15 takes the fault
RegisterIndexOutOfRange instead (the spec's decision D8). States R136. -/
def Obligations.NotComplementsInPlace : Prop :=
  (∀ w : Word, w.toNat % 256 = 0x09 → decode defaultOpcodes w = .ok (.not (w.extractLsb' 8 8))) ∧
  (∀ rd : Byte, (encode defaultOpcodes (.not rd)).toNat = 0x09 + 2 ^ 8 * rd.toNat) ∧
  (∀ (s : State) (d : RegIdx), ∃ t, exec (.not (regByte d)) s = .next t ∧
    (t.reg d).toNat = 0xFFFFFFFF - (s.reg d).toNat ∧ PcAdvanced s t ∧ OnlyRegister d s t) ∧
  (∀ rd : Byte, FaultsOnBadRegister (.not rd))

/-- CMP: the word under the default opcode map (the spec's decisions D1, D3), byte 3 is ignored; Z (bit 0) becomes 1
iff x[A] = x[B], N (bit 1) becomes 1 iff x[A] < x[B] as unsigned numbers (decision D13), both written every time; the
pc advances, nothing else changes; a register byte above 15 takes the fault RegisterIndexOutOfRange instead (the
spec's decision D8). States R151. -/
def Obligations.CmpWritesBothFlagsUnsigned : Prop :=
  (∀ w : Word, w.toNat % 256 = 0x0A → decode defaultOpcodes w = .ok (.cmp (w.extractLsb' 8 8) (w.extractLsb' 16 8))) ∧
  (∀ ra rb : Byte, (encode defaultOpcodes (.cmp ra rb)).toNat = 0x0A + 2 ^ 8 * ra.toNat + 2 ^ 16 * rb.toNat) ∧
  (∀ (s : State) (a b : RegIdx), ∃ t, exec (.cmp (regByte a) (regByte b)) s = .next t ∧
    (t.psw.getLsbD 0 = true ↔ (s.reg a).toNat = (s.reg b).toNat) ∧
    (t.psw.getLsbD 1 = true ↔ (s.reg a).toNat < (s.reg b).toNat) ∧ PcAdvanced s t ∧ OnlyFlags s t) ∧
  (∀ ra rb : Byte, FaultsOnBadRegister (.cmp ra rb))

/-- JE: the pc becomes the target if Z = 1, else pc + 1 mod 2^16; the word under the default opcode map (the spec's
decisions D1, D3), byte 3 is ignored; nothing but the pc changes and the jump's own cycle never faults; when it is
taken to a target at or beyond MEM_WORDS the next step faults with AddressOutOfRange(fetch) at the target. States
R152. -/
def Obligations.JeJumpsOnZero : Prop :=
  (∀ w : Word, w.toNat % 256 = 0x0B → decode defaultOpcodes w = .ok (.je (w.extractLsb' 8 16))) ∧
  (∀ target : Half, (encode defaultOpcodes (.je target)).toNat = 0x0B + 2 ^ 8 * target.toNat) ∧
  (∀ (s : State) (target : Half), ∃ t, exec (.je target) s = .next t ∧
    t.pc.toNat = (if s.psw.getLsbD 0 = true then target.toNat else (s.pc.toNat + 1) % 2 ^ 16) ∧ OnlyPc s t) ∧
  (∀ (s t : State) (target : Half), s.run = .running → s.psw.getLsbD 0 = true → s.cfg.memWords ≤ target.toNat →
    exec (.je target) s = .next t →
    ∃ u, step t = .next u ∧ FaultEntry (.addressOutOfRange .fetch target) t u)

/-- JNE: the pc becomes the target if Z = 0, else pc + 1 mod 2^16; the word under the default opcode map (the spec's
decisions D1, D3), byte 3 is ignored; nothing but the pc changes and the jump's own cycle never faults; when it is
taken to a target at or beyond MEM_WORDS the next step faults with AddressOutOfRange(fetch) at the target. States
R153. -/
def Obligations.JneJumpsOnNonZero : Prop :=
  (∀ w : Word, w.toNat % 256 = 0x0C → decode defaultOpcodes w = .ok (.jne (w.extractLsb' 8 16))) ∧
  (∀ target : Half, (encode defaultOpcodes (.jne target)).toNat = 0x0C + 2 ^ 8 * target.toNat) ∧
  (∀ (s : State) (target : Half), ∃ t, exec (.jne target) s = .next t ∧
    t.pc.toNat = (if s.psw.getLsbD 0 = false then target.toNat else (s.pc.toNat + 1) % 2 ^ 16) ∧ OnlyPc s t) ∧
  (∀ (s t : State) (target : Half), s.run = .running → s.psw.getLsbD 0 = false → s.cfg.memWords ≤ target.toNat →
    exec (.jne target) s = .next t →
    ∃ u, step t = .next u ∧ FaultEntry (.addressOutOfRange .fetch target) t u)

/-- HLT: the word under the default opcode map (the spec's decisions D1, D3), bytes 1 to 3 are ignored; run becomes
Halted, nothing else changes, the pc stays; the state it leaves steps to itself. States R160. -/
def Obligations.HltHaltsAndKeepsThePc : Prop :=
  (∀ w : Word, w.toNat % 256 = 0x0D → decode defaultOpcodes w = .ok (.hlt)) ∧
  (encode defaultOpcodes .hlt).toNat = 0x0000000D ∧
  (∀ s : State, ∃ t, exec .hlt s = .next t ∧ t.run = .halted ∧ OnlyRun s t ∧ step t = .next t)

/-- PRN: the word under the default opcode map (the spec's decisions D1, D3), bytes 2 and 3 are ignored; out becomes
out ++ [x[S]] (the value, decision D14), the pc advances, nothing else changes; a register byte above 15 takes the
fault RegisterIndexOutOfRange instead (the spec's decision D8). In that case nothing is emitted. States R161. -/
def Obligations.PrnEmitsTheRegister : Prop :=
  (∀ w : Word, w.toNat % 256 = 0x0E → decode defaultOpcodes w = .ok (.prn (w.extractLsb' 8 8))) ∧
  (∀ rs : Byte, (encode defaultOpcodes (.prn rs)).toNat = 0x0E + 2 ^ 8 * rs.toNat) ∧
  (∀ (s : State) (r : RegIdx), ∃ t, exec (.prn (regByte r)) s = .next t ∧
    t.out = s.out ++ [s.reg r] ∧ PcAdvanced s t ∧ OnlyOutput s t) ∧
  (∀ rs : Byte, FaultsOnBadRegister (.prn rs))

/-- NOP: the word under the default opcode map (the spec's decisions D1, D3), bytes 1 to 3 are ignored; the pc
advances (to 0 from 0xFFFF) and nothing else changes (that the cycle still advances is the spec's own inference from
the order of the cycle). Rests on 44_system.md (NOP). -/
def Obligations.NopOnlyAdvances : Prop :=
  (∀ w : Word, w.toNat % 256 = 0x0F → decode defaultOpcodes w = .ok (.nop)) ∧
  (encode defaultOpcodes .nop).toNat = 0x0000000F ∧
  (∀ s : State, ∃ t, exec .nop s = .next t ∧ PcAdvanced s t ∧ OnlyPc s t)

/-- With legal registers ADD, SUB and MUL never fault, write no flag, and their results are congruent modulo 2^32 to
the sum, difference and product of the sources, read as unsigned numbers and read as two's-complement numbers. Rests
on 42_alu.md section 3 (integer arithmetic laws). -/
def Obligations.ArithmeticIsExactModulo2Pow32 : Prop :=
  ∀ (s : State) (d a b : RegIdx),
    (∃ t, exec (.add (regByte d) (regByte a) (regByte b)) s = .next t ∧ t.run = s.run ∧ t.psw = s.psw ∧
      ((t.reg d).toNat : Int) ≡ (s.reg a).toNat + (s.reg b).toNat [ZMOD 2 ^ 32] ∧
      (t.reg d).toInt ≡ (s.reg a).toInt + (s.reg b).toInt [ZMOD 2 ^ 32]) ∧
    (∃ t, exec (.sub (regByte d) (regByte a) (regByte b)) s = .next t ∧ t.run = s.run ∧ t.psw = s.psw ∧
      ((t.reg d).toNat : Int) ≡ (s.reg a).toNat - (s.reg b).toNat [ZMOD 2 ^ 32] ∧
      (t.reg d).toInt ≡ (s.reg a).toInt - (s.reg b).toInt [ZMOD 2 ^ 32]) ∧
    (∃ t, exec (.mul (regByte d) (regByte a) (regByte b)) s = .next t ∧ t.run = s.run ∧ t.psw = s.psw ∧
      ((t.reg d).toNat : Int) ≡ (s.reg a).toNat * (s.reg b).toNat [ZMOD 2 ^ 32] ∧
      (t.reg d).toInt ≡ (s.reg a).toInt * (s.reg b).toInt [ZMOD 2 ^ 32])

/-- For each of the 15 instructions: with every register byte 0 to 15 and the data address of LD and ST below
MEM_WORDS, exec answers a next state with no new fault, the run state unchanged (Halted for HLT), and the pc at the
next pc (unchanged for HLT). Rests on 40_cycle.md section 5 (execute) and section 6 (advance); 60_exceptions.md
section 10 (what is not a fault). -/
def Obligations.EveryInstructionCompletes : Prop :=
  ∀ (i : Instr) (s : State), i.wellFormed = true →
    (∀ kind a, dataAccess i = some (kind, a) → a.toNat < s.cfg.memWords) →
    ∃ t, exec i s = .next t ∧ t.fault = s.fault ∧ t.run = (if i = .hlt then .halted else s.run) ∧
      t.pc = (if i = .hlt then s.pc else nextPc i s)

/-- With no fault of the operand check: LDI, LD, ADD, SUB, MUL, AND, OR and NOT change nothing but the register named
by byte 1 and the pc; ST nothing but the word at its address and the pc; CMP nothing but the flags and the pc; PRN
nothing but the output and the pc; HLT nothing but the run state; JE, JNE and NOP nothing but the pc. Rests on
40_cycle.md section 5 (effect). -/
def Obligations.EachInstructionHasOneEffect : Prop :=
  ∀ (i : Instr) (s t : State), operandFault s.cfg.memWords i = none → exec i s = .next t →
    (i.kind ∈ [.ldi, .ld, .add, .sub, .mul, .and, .or, .not] →
      ∃ d, i.registerBytes.head? = some (1, regByte d) ∧ OnlyRegister d s t) ∧
    (∀ rs a, i = .st rs a → OnlyWord a.toNat s t) ∧
    (i.kind = .cmp → OnlyFlags s t) ∧
    (i.kind = .prn → OnlyOutput s t) ∧
    (i.kind = .hlt → OnlyRun s t) ∧
    (i.kind ∈ [.je, .jne, .nop] → OnlyPc s t)

/-- Where the core is Running, the pc is below MEM_WORDS and the word at the pc decodes to i, the step is exec of i at
the state whose ir is that word and which is otherwise unchanged (the pc still at the instruction). Rests on
40_cycle.md sections 1 to 5 (the cycle); 40_cycle.md section 7 (the step function). -/
def Obligations.StepRunsTheDecodedInstruction : Prop :=
  ∀ (s : State) (i : Instr), s.run = .running → s.pc.toNat < s.cfg.memWords →
    decode s.cfg.opc (fetchedWord s) = .ok i → step s = exec i { s with ir := fetchedWord s }

/-- Where the core is Running, the pc is in range and byte 0 of the fetched word is no opcode of the map, the step
ends in Faulted with cause UndefinedOpcode, that byte and the pc recorded, ir holding the word (decision D22) and
nothing else changed; under the default map the undefined values are 0x00 and 0x10 to 0xFF. States R82, R175. -/
def Obligations.UndefinedOpcodeFaultsWithoutMutation : Prop :=
  (∀ s : State, s.run = .running → s.pc.toNat < s.cfg.memWords →
    (∀ k, s.cfg.opc.opcode k ≠ (fetchedWord s).setWidth 8) →
    ∃ t, step s = .next t ∧ FaultEntry .undefinedOpcode { s with ir := fetchedWord s } t) ∧
  (∀ b : Byte, (∀ k, defaultOpcodes.opcode k ≠ b) ↔ (b.toNat = 0 ∨ 0x10 ≤ b.toNat))

/-- Where the core is Running and the pc is at or beyond MEM_WORDS, the step ends in Faulted with
AddressOutOfRange(fetch, pc), and ir and everything else is unchanged (the spec's decision D6). States R53. -/
def Obligations.FetchOutOfRangeFaults : Prop :=
  ∀ s : State, s.run = .running → s.cfg.memWords ≤ s.pc.toNat →
    ∃ t, step s = .next t ∧ FaultEntry (.addressOutOfRange .fetch s.pc) s t

/-- Where the fetched word of a Running core decodes to an instruction whose first register byte above 15, by byte
number, is b at p, the step ends in Faulted with RegisterIndexOutOfRange(b, p), ir holding the word and everything
else unchanged (the spec's decision D8). It covers LDI, LD, ST, ADD, SUB, MUL, AND, OR, NOT, CMP and PRN. States R176.
-/
def Obligations.BadRegisterByteFaultsFirstPositionReported : Prop :=
  ∀ (s : State) (i : Instr) (p : Fin 4) (b : Byte), s.run = .running → s.pc.toNat < s.cfg.memWords →
    decode s.cfg.opc (fetchedWord s) = .ok i → i.firstBadRegister = some (p, b) →
    ∃ t, step s = .next t ∧ FaultEntry (.registerIndexOutOfRange b p) { s with ir := fetchedWord s } t

/-- For every Running state: where the first fault in the order of the rule (faultOfCycle) is c, the step ends in
Faulted with cause c; where there is none, the step does not end in Faulted (the order is the spec's decision D15).
States R179. -/
def Obligations.FaultsAreMetInTheFixedOrder : Prop :=
  ∀ s : State, s.run = .running →
    (∀ c, faultOfCycle s = some c → ∃ t r, step s = .next t ∧ t.run = .faulted ∧ t.fault = some r ∧ r.cause = c) ∧
    (faultOfCycle s = none → ∃ t, step s = .next t ∧ t.run ≠ .faulted)

/-- For every Running state whose step ends in Faulted: registers, flags, memory, output, configuration and pc are
unchanged, the record names the pc of the cycle and the opcode byte of ir, and ir is the fetched word, or unchanged
where the fetch itself faulted. States R107. -/
def Obligations.FaultsChangeNothingElse : Prop :=
  ∀ s t : State, s.run = .running → step s = .next t → t.run = .faulted →
    SameRegs s t ∧ SameBytes s t ∧ t.psw = s.psw ∧ t.out = s.out ∧ t.cfg = s.cfg ∧ t.pc = s.pc ∧
    (∃ r, t.fault = some r ∧ r.pc = s.pc ∧ r.opcode = t.ir.setWidth 8) ∧
    t.ir = (if s.pc.toNat < s.cfg.memWords then fetchedWord s else s.ir)

/-- The core starts Running at pc 0. From Running a cycle with a fault of the fixed order goes to Faulted and keeps
the pc, HLT goes to Halted and keeps the pc, any other instruction stays Running with the next pc; Halted and Faulted
step to themselves; reset goes from any state to Running at pc 0. States R170. -/
def Obligations.RunStateTransitions : Prop :=
  (State.reset.run = .running ∧ State.reset.pc = 0#16) ∧
  (∀ s t : State, step s = .next t →
    (s.run = .running → (faultOfCycle s).isSome = true → t.run = .faulted ∧ t.pc = s.pc) ∧
    (s.run = .running → faultOfCycle s = none → decode s.cfg.opc (fetchedWord s) = .ok .hlt →
      t.run = .halted ∧ t.pc = s.pc) ∧
    (∀ i, s.run = .running → faultOfCycle s = none → decode s.cfg.opc (fetchedWord s) = .ok i → i ≠ .hlt →
      t.run = .running ∧ t.pc = nextPc i s) ∧
    (s.run ≠ .running → t = s)) ∧
  (∀ s : State, (hostReset s).run = .running ∧ (hostReset s).pc = 0#16)

/-- For every state whose run is Halted or Faulted, any number of steps answers the same state; the host's reset makes
it Running (decision D16). States R171. -/
def Obligations.EndedCoreIsFrozenUntilReset : Prop :=
  ∀ s : State, s.run ≠ .running →
    (∀ k : Nat, Host.Core.run core k s = .next s) ∧ (hostReset s).run = .running

/-- For every Running state whose cycle meets no fault and whose instruction is not HLT, the pc after the step is the
target if it is a JE with Z = 1 or a JNE with Z = 0 (Z as the cycle began), else (pc + 1) mod 2^16 (the wrap is the
spec's decision D7). States R108. -/
def Obligations.NextPcAfterEveryStep : Prop :=
  ∀ (s t : State) (i : Instr), s.run = .running → faultOfCycle s = none →
    decode s.cfg.opc (fetchedWord s) = .ok i → i ≠ .hlt → step s = .next t →
    (∀ target, ((i = .je target ∧ s.psw.getLsbD 0 = true) ∨ (i = .jne target ∧ s.psw.getLsbD 0 = false)) →
      t.pc = target) ∧
    ((∀ target, ¬ ((i = .je target ∧ s.psw.getLsbD 0 = true) ∨ (i = .jne target ∧ s.psw.getLsbD 0 = false))) →
      t.pc.toNat = (s.pc.toNat + 1) % 2 ^ 16)

/-- For every state, without any premise, step answers a next state, never a stop of the model, and any number of
steps does. Rests on 40_cycle.md section 7 (step is total); 70_reset_and_hazards.md section 4 (progress). -/
def Obligations.EveryStepAnswersANextState : Prop :=
  (∀ s : State, ∃ t, step s = .next t) ∧ (∀ (k : Nat) (s : State), ∃ t, Host.Core.run core k s = .next t)

/-- From every state whose configuration meets the spec's constraints, whose memory is canonical and within the
capacity, whose status word is not 0b11 and which has a fault record exactly when Faulted, naming the pc and the
opcode byte of ir, a step leads to such a state. Rests on 10_state.md sections 4 and 5 (status word, memory, run state
and fault record); 20_memory.md section 1 (capacity); 60_exceptions.md section 1 (run states). -/
def Obligations.EveryStepKeepsTheInvariant : Prop :=
  ∀ s t : State, s.Inv → step s = .next t → t.Inv

/-- State.reset meets the invariant (its capacity and empty memory are the model's choices, log entries 2 and 4).
Rests on 10_state.md section 7 (reset values). -/
def Obligations.ResetMeetsTheInvariant : Prop :=
  State.reset.Inv

/-- Booting any accepted image under a configuration that meets the spec's constraints gives a state with the
invariant, and the host's reset keeps it from every state that has it. Rests on 70_reset_and_hazards.md sections 1 and
2 (reset, boot). -/
def Obligations.HostActsGiveTheInvariant : Prop :=
  (∀ (cfg : Config) (image : List Byte) (s : State), cfg.wf = true → boot cfg image = some s → s.Inv) ∧
  (∀ s : State, s.Inv → (hostReset s).Inv)

/-- From every state, reset gives pc 0, Running, every register 0, psw 0b00, ir 0, no fault record, an empty output
(zeros by the spec's decision D10), with the memory as the host left it; State.reset is such a state with no byte of
memory listed (log entry 4), 65536 words of memory (log entry 2) and the debug toggle off (log entry 19), all three
the model's choices, and with the spec's default opcode map (decision D1, log entry 3). Rests on 10_state.md section 7
(reset values); 70_reset_and_hazards.md section 1 (reset). -/
def Obligations.ResetClearsEveryRegister : Prop :=
  (∀ s : State, (hostReset s).pc = 0#16 ∧ (hostReset s).run = .running ∧ (∀ r, (hostReset s).reg r = 0#32) ∧
    (hostReset s).psw = 0#2 ∧ (hostReset s).ir = 0#32 ∧ (hostReset s).fault = none ∧ (hostReset s).out = [] ∧
    (hostReset s).mem = s.mem ∧ (hostReset s).cfg = s.cfg) ∧
  hostReset State.reset = State.reset ∧ State.reset.mem = [] ∧ State.reset.cfg.memWords = 65536 ∧
  State.reset.cfg.opc = defaultOpcodes ∧ State.reset.cfg.dbgEn = false

/-- CMP leaves psw = 0b01 on equal, 0b10 on unsigned-less and 0b00 on unsigned-greater operands; a step that changes
psw ran a CMP; a step from a psw other than 0b11 never gives 0b11; after reset psw is 0b00. States R150. -/
def Obligations.OnlyCompareWritesTheFlags : Prop :=
  (∀ (s : State) (a b : RegIdx), ∃ t, exec (.cmp (regByte a) (regByte b)) s = .next t ∧
    ((s.reg a).toNat = (s.reg b).toNat → t.psw = 0b01#2) ∧ ((s.reg a).toNat < (s.reg b).toNat → t.psw = 0b10#2) ∧
    ((s.reg b).toNat < (s.reg a).toNat → t.psw = 0b00#2)) ∧
  (∀ s t : State, step s = .next t → t.psw ≠ s.psw →
    ∃ ra rb, decode s.cfg.opc (fetchedWord s) = .ok (.cmp ra rb)) ∧
  (∀ s t : State, s.psw ≠ 0b11#2 → step s = .next t → t.psw ≠ 0b11#2) ∧
  State.reset.psw = 0b00#2

/-- If a step changes what a byte of memory reads as, the core was Running, the fetched word is an ST with a legal
register, its address is in range and the byte is one of the four of the word there. Rests on 10_state.md section 5
(memory); 20_memory.md section 4 (widths, side effects). -/
def Obligations.OnlyStoreWritesMemory : Prop :=
  ∀ (s t : State) (k : Nat), step s = .next t → t.mem.readByte k ≠ s.mem.readByte k →
    s.run = .running ∧ ∃ (r : RegIdx) (a : Half), decode s.cfg.opc (fetchedWord s) = .ok (.st (regByte r) a) ∧
      a.toNat < s.cfg.memWords ∧ 4 * a.toNat ≤ k ∧ k < 4 * a.toNat + 4

/-- For every state and its step, the output after is the output before followed by the value on out_data if out_valid
pulses in that step, and by nothing otherwise; so the output only grows, by at most one value a step. Rests on
10_state.md section 5 (the output stream) and section 8 (the interface); 44_system.md (PRN). -/
def Obligations.OutputGrowsByWhatThePortShows : Prop :=
  ∀ s t : State, step s = .next t → t.out = s.out ++ (outPort s).toList

/-- The configuration carried in the state (log entry 1) is the same after any number of steps. Rests on 10_state.md
section 8 (what is not state). -/
def Obligations.StepKeepsTheConfiguration : Prop :=
  ∀ (k : Nat) (s t : State), Host.Core.run core k s = .next t → t.cfg = s.cfg

/-- Where the capacity is 65536 words and there is no fault record, a step never records an address out of range, by
fetch, load or store. Rests on 20_memory.md section 1 (capacity); 60_exceptions.md section 2 (AddressOutOfRange). -/
def Obligations.FullMemoryHasNoAddressFault : Prop :=
  ∀ (s t : State) (r : FaultRecord) (kind : AccessKind) (a : Half), s.cfg.memWords = 65536 → s.fault = none →
    step s = .next t → t.fault = some r → r.cause ≠ .addressOutOfRange kind a

/-- For every number of steps, two states that differ only in the negative flag lead to states that agree on every
register, the memory, the pc, ir, the output, the run state, the fault record and the zero flag. Rests on 10_state.md
section 4 (flags); 90_conflicts.md C1. -/
def Obligations.NegativeFlagIsInvisible : Prop :=
  ∀ (k : Nat) (s t : State) (p : BitVec 2), p.getLsbD 0 = s.psw.getLsbD 0 → Host.Core.run core k s = .next t →
    ∃ q : BitVec 2, q.getLsbD 0 = t.psw.getLsbD 0 ∧
      Host.Core.run core k { s with psw := p } = .next { t with psw := q }

/-- Where the core is Running and the pc is in range, the step is the same whatever ir held before. Rests on
10_state.md section 5 (ir). -/
def Obligations.OldInstructionWordIsDead : Prop :=
  ∀ (s : State) (w : Word), s.run = .running → s.pc.toNat < s.cfg.memWords → step { s with ir := w } = step s

/-- For every number of steps, setting the debug toggle to either value before the run gives the same final state but
for the toggle. Rests on 40_cycle.md section 4 (trace point); 60_exceptions.md section 8 (debug observation). -/
def Obligations.DebugToggleChangesNothing : Prop :=
  ∀ (k : Nat) (s t : State) (b : Bool), Host.Core.run core k s = .next t →
    Host.Core.run core k (s.withDbg b) = .next (t.withDbg b)

/-- With dbg_en set and a Running core whose word decodes to i, the port shows the kind of i, bytes 0 to 3 of the
fetched word, and psw and x before the effect; it shows nothing without dbg_en, in an ended core, or where the fetch
or the decode faults (the port is the spec's decision D21). Rests on 40_cycle.md section 4 (trace point);
60_exceptions.md section 8 (debug observation). -/
def Obligations.DebugPortShowsTheTracePoint : Prop :=
  (∀ (s : State) (i : Instr), s.cfg.dbgEn = true → s.run = .running → s.pc.toNat < s.cfg.memWords →
    decode s.cfg.opc (fetchedWord s) = .ok i →
    dbgPort s = some { kind := i.kind,
                       ir := [(fetchedWord s).extractLsb' 0 8, (fetchedWord s).extractLsb' 8 8,
                              (fetchedWord s).extractLsb' 16 8, (fetchedWord s).extractLsb' 24 8],
                       psw := s.psw, x := s.x }) ∧
  (∀ s : State, s.cfg.dbgEn = false → dbgPort s = none) ∧
  (∀ s : State, s.run ≠ .running → dbgPort s = none) ∧
  (∀ s : State, s.cfg.memWords ≤ s.pc.toNat → dbgPort s = none) ∧
  (∀ (s : State) (e : DecodeError), decode s.cfg.opc (fetchedWord s) = .error e → dbgPort s = none)

/-- In canonical memory, after writing w at word address a, the word at b reads as w if b = a, and as before
otherwise. Rests on 20_memory.md section 4 (side effects); 20_memory.md section 7 (ordering). -/
def Obligations.ReadReturnsTheLastWrite : Prop :=
  ∀ (m : Memory) (a b : Nat) (w : Word), m.wf = true →
    (m.writeWord a w).readWord b = if b = a then w else m.readWord b

/-- The canonical form of the model's memory (log entry 6) is one for each memory contents. Rests on 20_memory.md
section 1 (organisation). -/
def Obligations.CanonicalMemoriesThatReadAlikeAreEqual : Prop :=
  ∀ m m' : Memory, m.wf = true → m'.wf = true → (∀ k, m.readByte k = m'.readByte k) → m = m'

/-- Where a Running core with canonical memory steps an ST of x[S] to an address in range: the word there is x[S]
after, ir still holds the ST, and if the address is pc + 1 the next fetch puts x[S] in ir. Rests on 20_memory.md
section 8 (instruction-fetch coherence). -/
def Obligations.StoreIsSeenByTheNextFetch : Prop :=
  ∀ (s : State) (r : RegIdx) (a : Half), s.mem.wf = true → s.run = .running → s.pc.toNat < s.cfg.memWords →
    decode s.cfg.opc (fetchedWord s) = .ok (.st (regByte r) a) → a.toNat < s.cfg.memWords →
    ∃ t, step s = .next t ∧ t.mem.readWord a.toNat = s.reg r ∧ t.ir = fetchedWord s ∧
      (a = s.pc + 1#16 → fetch t = some { t with ir := s.reg r })

/-- Where a Running core's word is a JE to the pc itself and Z is 1, every positive number of steps leads to the same
state with ir holding that word, and the run never faults. Rests on 43_compare_and_jumps.md section 2 (JE);
60_exceptions.md section 10 (what is not a fault). -/
def Obligations.JumpToItselfRunsForEver : Prop :=
  ∀ s : State, s.run = .running → s.pc.toNat < s.cfg.memWords →
    decode s.cfg.opc (fetchedWord s) = .ok (.je s.pc) → s.psw.getLsbD 0 = true →
    ∀ k : Nat, Host.Core.run core (k + 1) s = .next { s with ir := fetchedWord s } ∧ RunsSafely k s

/-- Booting an image gives canonical memory whose word k, for every whole word of the image, is b[4k] + 2^8 b[4k+1] +
2^16 b[4k+2] + 2^24 b[4k+3], with the core Running at pc 0; bytes beyond the image read as the model's unlisted byte
(log entry 4). Rests on 20_memory.md section 2 (byte order, image packing); 70_reset_and_hazards.md section 2 (boot).
-/
def Obligations.ImageIsPackedLittleEndian : Prop :=
  ∀ (cfg : Config) (image : List Byte) (s : State), boot cfg image = some s →
    s.mem.wf = true ∧ s.pc = 0#16 ∧ s.run = .running ∧ s.cfg = cfg ∧
    (∀ k, 4 * k + 4 ≤ image.length →
      (s.mem.readWord k).toNat = (image.getD (4 * k) 0#8).toNat + 2 ^ 8 * (image.getD (4 * k + 1) 0#8).toNat +
        2 ^ 16 * (image.getD (4 * k + 2) 0#8).toNat + 2 ^ 24 * (image.getD (4 * k + 3) 0#8).toNat) ∧
    (∀ n, image.length ≤ n → s.mem.readByte n = Config.unlistedByte)

/-- An image is accepted iff its length is at most 4 * MEM_WORDS bytes and a multiple of 4; that a broken last word is
refused is the model's choice (log entry 22). Rests on 70_reset_and_hazards.md section 2 (checks of the host). -/
def Obligations.ImageIsAcceptedIffItFits : Prop :=
  ∀ (cfg : Config) (image : List Byte),
    (boot cfg image).isSome = true ↔ image.length ≤ 4 * cfg.memWords ∧ image.length % 4 = 0

/-- From a state with canonical memory, the default opcode map and the pc in range: if the decoder reads i from a
table word, the step after placing it is exec of i with ir holding the word (log entry 21). Rests on 40_cycle.md
sections 2 and 3 (fetch, decode); 20_memory.md section 8 (instruction-fetch coherence). -/
def Obligations.PlacedWordIsTheOneTheStepRuns : Prop :=
  ∀ (s : State) (nbits w : Nat) (i : Instr), s.mem.wf = true → s.cfg.opc = defaultOpcodes →
    s.pc.toNat < s.cfg.memWords → decodeTableWord nbits w = some i →
    step (s.withFetchWord nbits w) = exec i { s.withFetchWord nbits w with ir := BitVec.ofNat 32 (w % 2 ^ nbits) }
end

