-- ==== Sys2Proof/Laws/Decode.lean ====
section
/-! SUPPORT. The bytes of a word: taking apart and putting together agree; the decoder's table finds what it maps. -/

namespace Sys2Proof

/-- Appending two bit vectors is adding at the place of the low one's width. -/
theorem toNat_append_add {n m : Nat} (x : BitVec n) (y : BitVec m) : (x ++ y).toNat = x.toNat * 2 ^ m + y.toNat := by
  rw [BitVec.toNat_append, ← Nat.shiftLeft_add_eq_or_of_lt y.isLt, Nat.shiftLeft_eq]

/-- The value of a word is that of its bytes (30_encoding.md R79). -/
theorem toNat_wordOfBytes (b0 b1 b2 b3 : Byte) :
    (wordOfBytes b0 b1 b2 b3).toNat = b0.toNat + 2 ^ 8 * b1.toNat + 2 ^ 16 * b2.toNat + 2 ^ 24 * b3.toNat := by
  have h : (wordOfBytes b0 b1 b2 b3).toNat = (b3 ++ (b2 ++ (b1 ++ b0))).toNat := rfl
  rw [h, toNat_append_add, toNat_append_add, toNat_append_add]
  omega

/-- The value of a byte of a word (00_scope.md R8). -/
theorem toNat_byteAt (w : Word) (i : Nat) : (byteAt w i).toNat = w.toNat / 2 ^ (8 * i) % 2 ^ 8 := by
  simp [byteAt, Nat.shiftRight_eq_div_pow]

/-- The value of a 16-bit field is that of its bytes (20_memory.md R54). -/
theorem toNat_halfOfBytes (lo hi : Byte) : (halfOfBytes lo hi).toNat = lo.toNat + 2 ^ 8 * hi.toNat := by
  have h : (halfOfBytes lo hi).toNat = (hi ++ lo).toNat := rfl
  rw [h, toNat_append_add]
  omega

theorem toNat_lowByte (h : Half) : (lowByte h).toNat = h.toNat % 2 ^ 8 := by simp [lowByte]

theorem toNat_highByte (h : Half) : (highByte h).toNat = h.toNat / 2 ^ 8 := by
  have := h.isLt
  simp [highByte, Nat.shiftRight_eq_div_pow]
  omega

@[simp] theorem byteAt_zero_wordOfBytes (b0 b1 b2 b3 : Byte) : byteAt (wordOfBytes b0 b1 b2 b3) 0 = b0 := by
  apply BitVec.eq_of_toNat_eq
  rw [toNat_byteAt, toNat_wordOfBytes]
  omega

@[simp] theorem byteAt_one_wordOfBytes (b0 b1 b2 b3 : Byte) : byteAt (wordOfBytes b0 b1 b2 b3) 1 = b1 := by
  apply BitVec.eq_of_toNat_eq
  rw [toNat_byteAt, toNat_wordOfBytes]
  omega

@[simp] theorem byteAt_two_wordOfBytes (b0 b1 b2 b3 : Byte) : byteAt (wordOfBytes b0 b1 b2 b3) 2 = b2 := by
  apply BitVec.eq_of_toNat_eq
  rw [toNat_byteAt, toNat_wordOfBytes]
  omega

@[simp] theorem byteAt_three_wordOfBytes (b0 b1 b2 b3 : Byte) : byteAt (wordOfBytes b0 b1 b2 b3) 3 = b3 := by
  apply BitVec.eq_of_toNat_eq
  rw [toNat_byteAt, toNat_wordOfBytes]
  omega

/-- A word is made of its four bytes. -/
theorem wordOfBytes_byteAt (w : Word) : wordOfBytes (byteAt w 0) (byteAt w 1) (byteAt w 2) (byteAt w 3) = w := by
  apply BitVec.eq_of_toNat_eq
  rw [toNat_wordOfBytes, toNat_byteAt, toNat_byteAt, toNat_byteAt, toNat_byteAt]
  omega

@[simp] theorem halfOfBytes_low_high (h : Half) : halfOfBytes (lowByte h) (highByte h) = h := by
  apply BitVec.eq_of_toNat_eq
  rw [toNat_halfOfBytes, toNat_lowByte, toNat_highByte]
  omega

@[simp] theorem lowByte_halfOfBytes (lo hi : Byte) : lowByte (halfOfBytes lo hi) = lo := by
  apply BitVec.eq_of_toNat_eq
  rw [toNat_lowByte, toNat_halfOfBytes]
  omega

@[simp] theorem highByte_halfOfBytes (lo hi : Byte) : highByte (halfOfBytes lo hi) = hi := by
  apply BitVec.eq_of_toNat_eq
  rw [toNat_highByte, toNat_halfOfBytes]
  omega

/-- Byte 0 is the low byte of the word. -/
theorem byteAt_zero_eq_setWidth (w : Word) : byteAt w 0 = w.setWidth 8 := by
  apply BitVec.eq_of_toNat_eq
  rw [toNat_byteAt]
  simp

/-- Every kind is listed. -/
theorem Kind.mem_all (k : Kind) : k ∈ Kind.all := by cases k <;> decide

/-- What the decoder's table finds has the opcode it was asked for (30_encoding.md R81). -/
theorem opcode_of_decodeKind {m : OpcodeMap} {b : Byte} {k : Kind} (h : decodeKind m b = some k) : m.opcode k = b := by
  have := List.find?_some h
  simpa using this

/-- The decoder's table finds nothing exactly when no kind has the opcode (R82). -/
theorem decodeKind_eq_none {m : OpcodeMap} {b : Byte} : decodeKind m b = none ↔ ∀ k, m.opcode k ≠ b := by
  simp only [decodeKind, List.find?_eq_none, beq_iff_eq]
  exact ⟨fun h k => h k (Kind.mem_all k), fun h k _ => h k⟩

end Sys2Proof
end

