-- ==== Sys2Proof/Laws/Memory.lean ====
section
/-! SUPPORT. The laws of the memory: read after write, untouched bytes, the canonical form and the capacity are kept. -/

namespace Sys2Proof.Machine

namespace Memory

@[simp] theorem readByte_nil (a : Nat) : Memory.readByte [] a = Config.unlistedByte := rfl

@[simp] theorem wfFrom_nil (lo : Nat) : Memory.wfFrom lo [] = true := rfl

theorem wfFrom_cons {lo k : Nat} {b : Byte} {rest : Memory} :
    Memory.wfFrom lo ((k, b) :: rest) = true ↔
      lo ≤ k ∧ b ≠ Config.unlistedByte ∧ Memory.wfFrom (k + 1) rest = true := by
  simp [Memory.wfFrom, and_assoc]

/-- A canonical list stays canonical from any lower key. -/
theorem wfFrom_mono {lo lo' : Nat} {m : Memory} (h : m.wfFrom lo = true) (hle : lo' ≤ lo) : m.wfFrom lo' = true := by
  cases m with
  | nil => rfl
  | cons c rest =>
    obtain ⟨k, b⟩ := c
    rw [wfFrom_cons] at h ⊢
    exact ⟨by omega, h.2⟩

/-- Below its first key a canonical list lists nothing. -/
theorem readByte_lt_of_wfFrom {lo : Nat} {m : Memory} (h : m.wfFrom lo = true) {a : Nat} (ha : a < lo) :
    m.readByte a = Config.unlistedByte := by
  induction m generalizing lo with
  | nil => rfl
  | cons c rest ih =>
    obtain ⟨k, b⟩ := c
    rw [wfFrom_cons] at h
    rw [Memory.readByte, if_neg (by omega)]
    exact ih h.2.2 (by omega)

/-- A write leaves every other byte alone, whatever the list. -/
theorem readByte_writeByte_ne (m : Memory) {a k : Nat} (v : Byte) (hne : k ≠ a) :
    (m.writeByte a v).readByte k = m.readByte k := by
  induction m with
  | nil =>
    rw [Memory.writeByte]
    split <;> simp [Memory.readByte, hne.symm]
  | cons c rest ih =>
    obtain ⟨k', b⟩ := c
    rw [Memory.writeByte]
    split
    · split <;> simp [Memory.readByte, hne.symm]
    · split
      · subst a
        split <;> simp [Memory.readByte, hne.symm]
      · simp [Memory.readByte, ih]

/-- A byte reads back what was written to it. -/
theorem readByte_writeByte_same {lo : Nat} {m : Memory} (h : m.wfFrom lo = true) (a : Nat) (v : Byte) :
    (m.writeByte a v).readByte a = v := by
  induction m generalizing lo with
  | nil =>
    rw [Memory.writeByte]
    split <;> simp_all [Memory.readByte]
  | cons c rest ih =>
    obtain ⟨k, b⟩ := c
    rw [wfFrom_cons] at h
    rw [Memory.writeByte]
    split
    · split
      · next hlt hv =>
        rw [Memory.readByte, if_neg (by omega), hv]
        exact readByte_lt_of_wfFrom h.2.2 (by omega)
      · simp [Memory.readByte]
    · split
      · next heq =>
        subst a
        split
        · next hv => rw [hv]; exact readByte_lt_of_wfFrom h.2.2 (by omega)
        · simp [Memory.readByte]
      · next hne =>
        rw [Memory.readByte, if_neg (fun e => hne e.symm)]
        exact ih h.2.2

/-- The canonical form is kept by a write. -/
theorem wfFrom_writeByte {lo : Nat} {m : Memory} (h : m.wfFrom lo = true) {a : Nat} (ha : lo ≤ a) (v : Byte) :
    (m.writeByte a v).wfFrom lo = true := by
  induction m generalizing lo with
  | nil =>
    rw [Memory.writeByte]
    split
    · rfl
    · rw [wfFrom_cons]; exact ⟨ha, ‹_›, rfl⟩
  | cons c rest ih =>
    obtain ⟨k, b⟩ := c
    have h' := wfFrom_cons.1 h
    rw [Memory.writeByte]
    split
    · split
      · exact h
      · rw [wfFrom_cons, wfFrom_cons]
        exact ⟨ha, ‹_›, by omega, h'.2⟩
    · split
      · next heq =>
        split
        · exact wfFrom_mono h'.2.2 (by omega)
        · rw [wfFrom_cons, heq]
          exact ⟨h'.1, ‹_›, h'.2.2⟩
      · rw [wfFrom_cons]
        exact ⟨h'.1, h'.2.1, ih h'.2.2 (by omega)⟩

theorem wf_writeByte {m : Memory} (h : m.wf = true) (a : Nat) (v : Byte) : (m.writeByte a v).wf = true :=
  wfFrom_writeByte h (Nat.zero_le a) v

/-- The canonical form is kept by storing a word. -/
theorem wf_writeWord {m : Memory} (h : m.wf = true) (a : Nat) (w : Word) : (m.writeWord a w).wf = true :=
  wf_writeByte (wf_writeByte (wf_writeByte (wf_writeByte h _ _) _ _) _ _) _ _

theorem below_cons {n k : Nat} {b : Byte} {rest : Memory} :
    Memory.below n ((k, b) :: rest) = true ↔ k < n ∧ Memory.below n rest = true := by
  simp [Memory.below]

/-- Every listed key of a memory after a write is an old key or the one written. -/
theorem below_writeByte {n : Nat} {m : Memory} (h : m.below n = true) {a : Nat} (ha : a < n) (v : Byte) :
    (m.writeByte a v).below n = true := by
  induction m with
  | nil =>
    rw [Memory.writeByte]
    split
    · rfl
    · exact below_cons.2 ⟨ha, rfl⟩
  | cons c rest ih =>
    obtain ⟨k, b⟩ := c
    have h' := below_cons.1 h
    rw [Memory.writeByte]
    split
    · split
      · exact h
      · exact below_cons.2 ⟨ha, h⟩
    · split
      · split
        · exact h'.2
        · exact below_cons.2 ⟨ha, h'.2⟩
      · exact below_cons.2 ⟨h'.1, ih h'.2⟩

/-- A store in range keeps every listed byte below the capacity. -/
theorem below_writeWord {n : Nat} {m : Memory} (h : m.below (4 * n) = true) {a : Nat} (ha : a < n) (w : Word) :
    (m.writeWord a w).below (4 * n) = true :=
  below_writeByte (below_writeByte (below_writeByte (below_writeByte h (by omega) _) (by omega) _) (by omega) _)
    (by omega) _

/-- Storing a word leaves every byte outside it alone. -/
theorem readByte_writeWord_outside (m : Memory) {a k : Nat} (w : Word) (hk : k < 4 * a ∨ 4 * a + 4 ≤ k) :
    (m.writeWord a w).readByte k = m.readByte k := by
  unfold Memory.writeWord
  rw [readByte_writeByte_ne _ _ (by omega), readByte_writeByte_ne _ _ (by omega),
    readByte_writeByte_ne _ _ (by omega), readByte_writeByte_ne _ _ (by omega)]

/-- Byte `i` of the word at `a` is the byte under the key `4 * a + i` (20_memory.md R54). -/
theorem readByte_writeWord_inside {m : Memory} (h : m.wf = true) (a : Nat) (w : Word) {i : Nat} (hi : i < 4) :
    (m.writeWord a w).readByte (4 * a + i) = byteAt w i := by
  have h1 := wf_writeByte h (4 * a) (byteAt w 0)
  have h2 := wf_writeByte h1 (4 * a + 1) (byteAt w 1)
  have h3 := wf_writeByte h2 (4 * a + 2) (byteAt w 2)
  unfold Memory.writeWord
  obtain rfl | rfl | rfl | rfl : i = 0 ∨ i = 1 ∨ i = 2 ∨ i = 3 := by omega
  · rw [readByte_writeByte_ne _ _ (by omega), readByte_writeByte_ne _ _ (by omega),
      readByte_writeByte_ne _ _ (by omega)]
    exact readByte_writeByte_same h _ _
  · rw [readByte_writeByte_ne _ _ (by omega), readByte_writeByte_ne _ _ (by omega)]
    exact readByte_writeByte_same h1 _ _
  · rw [readByte_writeByte_ne _ _ (by omega)]
    exact readByte_writeByte_same h2 _ _
  · exact readByte_writeByte_same h3 _ _

/-- Words are read through their bytes alone. -/
theorem readWord_congr {m m' : Memory} {a : Nat} (h : ∀ i < 4, m.readByte (4 * a + i) = m'.readByte (4 * a + i)) :
    m.readWord a = m'.readWord a := by
  have h0 := h 0 (by omega)
  have h1 := h 1 (by omega)
  have h2 := h 2 (by omega)
  have h3 := h 3 (by omega)
  rw [Nat.add_zero] at h0
  simp only [Memory.readWord, h0, h1, h2, h3]

end Memory

/-- An image becomes canonical memory. -/
theorem wfFrom_imageFrom (image : List Byte) (at0 : Nat) : (imageFrom at0 image).wfFrom at0 = true := by
  induction image generalizing at0 with
  | nil => rfl
  | cons b rest ih =>
    rw [imageFrom]
    split
    · exact Memory.wfFrom_mono (ih (at0 + 1)) (by omega)
    · rw [Memory.wfFrom_cons]
      exact ⟨le_refl _, ‹_›, ih (at0 + 1)⟩

end Sys2Proof.Machine
end

