-- ==== Sys2Proof/Laws/PerInstr.lean ====
section
/-! SUPPORT. Facts about every instruction as syntax, one lemma per constructor. -/

namespace Sys2Proof.Laws

/-! ### Byte 0 of an encoding is the opcode of the instruction's kind (30_encoding.md R71, R79) -/

namespace OpcodeByte

def Statement (i : Instr) : Prop := ∀ m : OpcodeMap, byteAt (encode m i) 0 = m.opcode i.kind

theorem ldi (rd : Byte) (imm : Half) : Statement (.ldi rd imm) := fun _ => byteAt_zero_wordOfBytes _ _ _ _

theorem ld (rd : Byte) (addr : Half) : Statement (.ld rd addr) := fun _ => byteAt_zero_wordOfBytes _ _ _ _

theorem st (rs : Byte) (addr : Half) : Statement (.st rs addr) := fun _ => byteAt_zero_wordOfBytes _ _ _ _

theorem add (rd ra rb : Byte) : Statement (.add rd ra rb) := fun _ => byteAt_zero_wordOfBytes _ _ _ _

theorem sub (rd ra rb : Byte) : Statement (.sub rd ra rb) := fun _ => byteAt_zero_wordOfBytes _ _ _ _

theorem mul (rd ra rb : Byte) : Statement (.mul rd ra rb) := fun _ => byteAt_zero_wordOfBytes _ _ _ _

theorem and (rd ra rb : Byte) : Statement (.and rd ra rb) := fun _ => byteAt_zero_wordOfBytes _ _ _ _

theorem or (rd ra rb : Byte) : Statement (.or rd ra rb) := fun _ => byteAt_zero_wordOfBytes _ _ _ _

theorem not (rd : Byte) : Statement (.not rd) := fun _ => byteAt_zero_wordOfBytes _ _ _ _

theorem cmp (ra rb : Byte) : Statement (.cmp ra rb) := fun _ => byteAt_zero_wordOfBytes _ _ _ _

theorem je (t : Half) : Statement (.je t) := fun _ => byteAt_zero_wordOfBytes _ _ _ _

theorem jne (t : Half) : Statement (.jne t) := fun _ => byteAt_zero_wordOfBytes _ _ _ _

theorem hlt : Statement .hlt := fun _ => byteAt_zero_wordOfBytes _ _ _ _

theorem prn (rs : Byte) : Statement (.prn rs) := fun _ => byteAt_zero_wordOfBytes _ _ _ _

theorem nop : Statement .nop := fun _ => byteAt_zero_wordOfBytes _ _ _ _

end OpcodeByte

/-! ### The operand fields of an encoding are the instruction's own (R72 to R79) -/

namespace OperandFields

def Statement (i : Instr) : Prop := ∀ m : OpcodeMap, operands i.kind (encode m i) = i

theorem ldi (rd : Byte) (imm : Half) : Statement (.ldi rd imm) := fun m => by simp [operands, Instr.kind, encode, encodeRI, k16]

theorem ld (rd : Byte) (addr : Half) : Statement (.ld rd addr) := fun m => by simp [operands, Instr.kind, encode, encodeRI, k16]

theorem st (rs : Byte) (addr : Half) : Statement (.st rs addr) := fun m => by simp [operands, Instr.kind, encode, encodeRI, k16]

theorem add (rd ra rb : Byte) : Statement (.add rd ra rb) := fun m => by simp [operands, Instr.kind, encode, encodeRRR]

theorem sub (rd ra rb : Byte) : Statement (.sub rd ra rb) := fun m => by simp [operands, Instr.kind, encode, encodeRRR]

theorem mul (rd ra rb : Byte) : Statement (.mul rd ra rb) := fun m => by simp [operands, Instr.kind, encode, encodeRRR]

theorem and (rd ra rb : Byte) : Statement (.and rd ra rb) := fun m => by simp [operands, Instr.kind, encode, encodeRRR]

theorem or (rd ra rb : Byte) : Statement (.or rd ra rb) := fun m => by simp [operands, Instr.kind, encode, encodeRRR]

theorem not (rd : Byte) : Statement (.not rd) := fun m => by simp [operands, Instr.kind, encode, encodeR]

theorem cmp (ra rb : Byte) : Statement (.cmp ra rb) := fun m => by simp [operands, Instr.kind, encode, encodeRR]

theorem je (t : Half) : Statement (.je t) := fun m => by simp [operands, Instr.kind, encode, encodeJ, t16]

theorem jne (t : Half) : Statement (.jne t) := fun m => by simp [operands, Instr.kind, encode, encodeJ, t16]

theorem hlt : Statement .hlt := fun _ => rfl

theorem prn (rs : Byte) : Statement (.prn rs) := fun m => by simp [operands, Instr.kind, encode, encodeR]

theorem nop : Statement .nop := fun _ => rfl

end OperandFields

end Sys2Proof.Laws
end

