-- ==== Sys2Proof/Laws/State.lean ====
section
/-! SUPPORT. One lemma per field per update of the state, true by rfl, so that no proof unfolds a record update. -/

namespace Sys2Proof.Machine

variable (s : State)

/-! ### `setReg` -/

@[simp] theorem State.setReg_cfg (r : RegIdx) (v : Word) : (s.setReg r v).cfg = s.cfg := rfl
@[simp] theorem State.setReg_x (r : RegIdx) (v : Word) : (s.setReg r v).x = s.x.set r.val v r.isLt := rfl
@[simp] theorem State.setReg_pc (r : RegIdx) (v : Word) : (s.setReg r v).pc = s.pc := rfl
@[simp] theorem State.setReg_psw (r : RegIdx) (v : Word) : (s.setReg r v).psw = s.psw := rfl
@[simp] theorem State.setReg_ir (r : RegIdx) (v : Word) : (s.setReg r v).ir = s.ir := rfl
@[simp] theorem State.setReg_mem (r : RegIdx) (v : Word) : (s.setReg r v).mem = s.mem := rfl
@[simp] theorem State.setReg_run (r : RegIdx) (v : Word) : (s.setReg r v).run = s.run := rfl
@[simp] theorem State.setReg_fault (r : RegIdx) (v : Word) : (s.setReg r v).fault = s.fault := rfl
@[simp] theorem State.setReg_out (r : RegIdx) (v : Word) : (s.setReg r v).out = s.out := rfl

/-! ### `setPc` -/

@[simp] theorem State.setPc_cfg (t : Half) : (s.setPc t).cfg = s.cfg := rfl
@[simp] theorem State.setPc_x (t : Half) : (s.setPc t).x = s.x := rfl
@[simp] theorem State.setPc_pc (t : Half) : (s.setPc t).pc = t := rfl
@[simp] theorem State.setPc_psw (t : Half) : (s.setPc t).psw = s.psw := rfl
@[simp] theorem State.setPc_ir (t : Half) : (s.setPc t).ir = s.ir := rfl
@[simp] theorem State.setPc_mem (t : Half) : (s.setPc t).mem = s.mem := rfl
@[simp] theorem State.setPc_run (t : Half) : (s.setPc t).run = s.run := rfl
@[simp] theorem State.setPc_fault (t : Half) : (s.setPc t).fault = s.fault := rfl
@[simp] theorem State.setPc_out (t : Half) : (s.setPc t).out = s.out := rfl
@[simp] theorem State.setPc_reg (t : Half) (q : RegIdx) : (s.setPc t).reg q = s.reg q := rfl

/-! ### `setPsw` -/

@[simp] theorem State.setPsw_cfg (p : BitVec 2) : (s.setPsw p).cfg = s.cfg := rfl
@[simp] theorem State.setPsw_x (p : BitVec 2) : (s.setPsw p).x = s.x := rfl
@[simp] theorem State.setPsw_pc (p : BitVec 2) : (s.setPsw p).pc = s.pc := rfl
@[simp] theorem State.setPsw_psw (p : BitVec 2) : (s.setPsw p).psw = p := rfl
@[simp] theorem State.setPsw_ir (p : BitVec 2) : (s.setPsw p).ir = s.ir := rfl
@[simp] theorem State.setPsw_mem (p : BitVec 2) : (s.setPsw p).mem = s.mem := rfl
@[simp] theorem State.setPsw_run (p : BitVec 2) : (s.setPsw p).run = s.run := rfl
@[simp] theorem State.setPsw_fault (p : BitVec 2) : (s.setPsw p).fault = s.fault := rfl
@[simp] theorem State.setPsw_out (p : BitVec 2) : (s.setPsw p).out = s.out := rfl
@[simp] theorem State.setPsw_reg (p : BitVec 2) (q : RegIdx) : (s.setPsw p).reg q = s.reg q := rfl

/-! ### `setIr` -/

@[simp] theorem State.setIr_cfg (w : Word) : (s.setIr w).cfg = s.cfg := rfl
@[simp] theorem State.setIr_x (w : Word) : (s.setIr w).x = s.x := rfl
@[simp] theorem State.setIr_pc (w : Word) : (s.setIr w).pc = s.pc := rfl
@[simp] theorem State.setIr_psw (w : Word) : (s.setIr w).psw = s.psw := rfl
@[simp] theorem State.setIr_ir (w : Word) : (s.setIr w).ir = w := rfl
@[simp] theorem State.setIr_mem (w : Word) : (s.setIr w).mem = s.mem := rfl
@[simp] theorem State.setIr_run (w : Word) : (s.setIr w).run = s.run := rfl
@[simp] theorem State.setIr_fault (w : Word) : (s.setIr w).fault = s.fault := rfl
@[simp] theorem State.setIr_out (w : Word) : (s.setIr w).out = s.out := rfl
@[simp] theorem State.setIr_reg (w : Word) (q : RegIdx) : (s.setIr w).reg q = s.reg q := rfl

/-! ### `storeWord` -/

@[simp] theorem State.storeWord_cfg (a : Nat) (w : Word) : (s.storeWord a w).cfg = s.cfg := rfl
@[simp] theorem State.storeWord_x (a : Nat) (w : Word) : (s.storeWord a w).x = s.x := rfl
@[simp] theorem State.storeWord_pc (a : Nat) (w : Word) : (s.storeWord a w).pc = s.pc := rfl
@[simp] theorem State.storeWord_psw (a : Nat) (w : Word) : (s.storeWord a w).psw = s.psw := rfl
@[simp] theorem State.storeWord_ir (a : Nat) (w : Word) : (s.storeWord a w).ir = s.ir := rfl
@[simp] theorem State.storeWord_mem (a : Nat) (w : Word) : (s.storeWord a w).mem = s.mem.writeWord a w := rfl
@[simp] theorem State.storeWord_run (a : Nat) (w : Word) : (s.storeWord a w).run = s.run := rfl
@[simp] theorem State.storeWord_fault (a : Nat) (w : Word) : (s.storeWord a w).fault = s.fault := rfl
@[simp] theorem State.storeWord_out (a : Nat) (w : Word) : (s.storeWord a w).out = s.out := rfl
@[simp] theorem State.storeWord_reg (a : Nat) (w : Word) (q : RegIdx) : (s.storeWord a w).reg q = s.reg q := rfl

/-! ### `emit` -/

@[simp] theorem State.emit_cfg (v : Word) : (s.emit v).cfg = s.cfg := rfl
@[simp] theorem State.emit_x (v : Word) : (s.emit v).x = s.x := rfl
@[simp] theorem State.emit_pc (v : Word) : (s.emit v).pc = s.pc := rfl
@[simp] theorem State.emit_psw (v : Word) : (s.emit v).psw = s.psw := rfl
@[simp] theorem State.emit_ir (v : Word) : (s.emit v).ir = s.ir := rfl
@[simp] theorem State.emit_mem (v : Word) : (s.emit v).mem = s.mem := rfl
@[simp] theorem State.emit_run (v : Word) : (s.emit v).run = s.run := rfl
@[simp] theorem State.emit_fault (v : Word) : (s.emit v).fault = s.fault := rfl
@[simp] theorem State.emit_out (v : Word) : (s.emit v).out = s.out ++ [v] := rfl
@[simp] theorem State.emit_reg (v : Word) (q : RegIdx) : (s.emit v).reg q = s.reg q := rfl

/-! ### `halt` -/

@[simp] theorem State.halt_cfg : (s.halt).cfg = s.cfg := rfl
@[simp] theorem State.halt_x : (s.halt).x = s.x := rfl
@[simp] theorem State.halt_pc : (s.halt).pc = s.pc := rfl
@[simp] theorem State.halt_psw : (s.halt).psw = s.psw := rfl
@[simp] theorem State.halt_ir : (s.halt).ir = s.ir := rfl
@[simp] theorem State.halt_mem : (s.halt).mem = s.mem := rfl
@[simp] theorem State.halt_run : (s.halt).run = .halted := rfl
@[simp] theorem State.halt_fault : (s.halt).fault = s.fault := rfl
@[simp] theorem State.halt_out : (s.halt).out = s.out := rfl
@[simp] theorem State.halt_reg (q : RegIdx) : (s.halt).reg q = s.reg q := rfl

/-! ### `fail` -/

@[simp] theorem State.fail_cfg (c : FaultCause) : (s.fail c).cfg = s.cfg := rfl
@[simp] theorem State.fail_x (c : FaultCause) : (s.fail c).x = s.x := rfl
@[simp] theorem State.fail_pc (c : FaultCause) : (s.fail c).pc = s.pc := rfl
@[simp] theorem State.fail_psw (c : FaultCause) : (s.fail c).psw = s.psw := rfl
@[simp] theorem State.fail_ir (c : FaultCause) : (s.fail c).ir = s.ir := rfl
@[simp] theorem State.fail_mem (c : FaultCause) : (s.fail c).mem = s.mem := rfl
@[simp] theorem State.fail_run (c : FaultCause) : (s.fail c).run = .faulted := rfl
@[simp] theorem State.fail_fault (c : FaultCause) : (s.fail c).fault = some { cause := c, opcode := byteAt s.ir 0, pc := s.pc } := rfl
@[simp] theorem State.fail_out (c : FaultCause) : (s.fail c).out = s.out := rfl
@[simp] theorem State.fail_reg (c : FaultCause) (q : RegIdx) : (s.fail c).reg q = s.reg q := rfl

/-- A register reads back what was written to it; the others are untouched (10_state.md R20, R21: none is hard-wired). -/
@[simp] theorem State.reg_setReg (r q : RegIdx) (v : Word) :
    (s.setReg r v).reg q = if q = r then v else s.reg q := by
  simp only [State.reg, State.setReg, Fin.getElem_fin, Vector.getElem_set]
  by_cases h : r = q
  · simp [h]
  · rw [if_neg (fun e => h (Fin.ext e)), if_neg (fun e => h e.symm)]

@[simp] theorem State.reg_setReg_same (r : RegIdx) (v : Word) : (s.setReg r v).reg r = v := by simp

/-! ### Reset -/

@[simp] theorem State.resetWith_reg (c : Config) (m : Memory) (q : RegIdx) : (State.resetWith c m).reg q = 0#32 := by
  simp [State.reg, State.resetWith]

/-! ### The ways an instruction ends -/

@[simp] theorem raise_eq (c : FaultCause) : raise c s = .next (s.fail c) := rfl

@[simp] theorem advance_eq : advance s = .next (s.setPc (s.pc + 1#16)) := rfl

@[simp] theorem jump_eq (t : Half) : jump t s = .next (s.setPc t) := rfl

@[simp] theorem stop_eq : stop s = .next s.halt := rfl

end Sys2Proof.Machine
end

