-- ==== Sys2Proof/Laws/Step.lean ====
section
/-! SUPPORT. What the shared operations and one step can do, said once: the operand checks, the three-register form, an
inversion of `exec` and one of `step`. -/

namespace Sys2Proof.Machine

/-! ### Register bytes -/

@[simp] theorem toNat_regByte (r : RegIdx) : (regByte r).toNat = r.val := by
  have := r.isLt
  simp [regByte]
  omega

/-- Every byte of 0 to 15 encodes a register. -/
theorem exists_regByte {b : Byte} (h : b.toNat ≤ 15) : ∃ r : RegIdx, b = regByte r :=
  ⟨⟨b.toNat, by omega⟩, by apply BitVec.eq_of_toNat_eq; simp⟩

/-! ### The status word (10_state.md R26) -/

@[simp] theorem packFlags_getLsbD_zero (n z : Bool) : (packFlags n z).getLsbD 0 = z := by
  cases n <;> cases z <;> rfl

@[simp] theorem packFlags_getLsbD_one (n z : Bool) : (packFlags n z).getLsbD 1 = n := by
  cases n <;> cases z <;> rfl

/-! ### The operand checks (40_cycle.md R104) -/

@[simp] theorem withRegister_regByte (pos : Fin 4) (r : RegIdx) (s : State) (k : RegIdx → Result) :
    withRegister pos (regByte r) s k = k r := by
  have h : (regByte r).toNat < 16 := by simp
  rw [withRegister, dif_pos h]
  exact congrArg k (Fin.ext (toNat_regByte r))

theorem withRegister_bad (pos : Fin 4) {b : Byte} (h : 15 < b.toNat) (s : State) (k : RegIdx → Result) :
    withRegister pos b s k = .next (s.fail (.registerIndexOutOfRange b pos)) := by
  rw [withRegister, dif_neg (by omega)]
  rfl

theorem withAddress_inRange {a : Half} {s : State} (h : a.toNat < s.cfg.memWords) (kind : AccessKind)
    (k : Nat → Result) : withAddress kind a s k = k a.toNat := by
  simp [withAddress, State.inRange, h]

theorem withAddress_outOfRange {a : Half} {s : State} (h : s.cfg.memWords ≤ a.toNat) (kind : AccessKind)
    (k : Nat → Result) : withAddress kind a s k = .next (s.fail (.addressOutOfRange kind a)) := by
  simp [withAddress, State.inRange, h]

/-- The whole effect of the three-register form (42_alu.md R130). -/
@[simp] theorem threeRegister_regByte (f : Word → Word → Word) (d a b : RegIdx) (s : State) :
    threeRegister f (regByte d) (regByte a) (regByte b) s =
      .next ((s.setReg d (f (s.reg a) (s.reg b))).setPc (s.pc + 1#16)) := by
  simp [threeRegister]

/-! ### The whole effect of each one- and two-register instruction on legal operands -/

theorem execLdi_regByte (d : RegIdx) (imm : Half) (s : State) :
    execLdi (regByte d) imm s = .next ((s.setReg d (zeroExtend imm)).setPc (s.pc + 1#16)) := by
  rw [execLdi, withRegister_regByte]
  rfl

theorem execLd_regByte (d : RegIdx) {a : Half} {s : State} (h : a.toNat < s.cfg.memWords) :
    execLd (regByte d) a s = .next ((s.setReg d (s.mem.readWord a.toNat)).setPc (s.pc + 1#16)) := by
  rw [execLd, withRegister_regByte, withAddress_inRange h]
  rfl

theorem execSt_regByte (r : RegIdx) {a : Half} {s : State} (h : a.toNat < s.cfg.memWords) :
    execSt (regByte r) a s = .next ((s.storeWord a.toNat (s.reg r)).setPc (s.pc + 1#16)) := by
  rw [execSt, withRegister_regByte, withAddress_inRange h]
  rfl

theorem execNot_regByte (d : RegIdx) (s : State) :
    execNot (regByte d) s = .next ((s.setReg d (~~~ (s.reg d))).setPc (s.pc + 1#16)) := by
  rw [execNot, withRegister_regByte]
  rfl

theorem execCmp_regByte (a b : RegIdx) (s : State) :
    execCmp (regByte a) (regByte b) s =
      .next ((s.setPsw (compareFlags (s.reg a) (s.reg b))).setPc (s.pc + 1#16)) := by
  rw [execCmp, withRegister_regByte, withRegister_regByte]
  rfl

theorem execPrn_regByte (r : RegIdx) (s : State) :
    execPrn (regByte r) s = .next ((s.emit (s.reg r)).setPc (s.pc + 1#16)) := by
  rw [execPrn, withRegister_regByte]
  rfl

/-! ### Fetch (R101) -/

theorem fetch_inRange {s : State} (h : s.pc.toNat < s.cfg.memWords) :
    fetch s = some (s.setIr (s.mem.readWord s.pc.toNat)) := by
  simp [fetch, State.inRange, h, State.loadWord]

theorem fetch_outOfRange {s : State} (h : s.cfg.memWords ≤ s.pc.toNat) : fetch s = none := by
  simp [fetch, State.inRange, h]

/-! ### The register bytes of an instruction -/

theorem firstBadRegister_some {i : Instr} {p : Fin 4} {b : Byte} (h : i.firstBadRegister = some (p, b)) :
    15 < b.toNat := by
  have := List.find?_some h
  simpa using this

theorem firstBadRegister_eq_none {i : Instr} : i.firstBadRegister = none ↔ i.wellFormed = true := by
  simp [Instr.firstBadRegister, Instr.wellFormed]

/-! ### What `exec` can do -/

/-- What the effect of an instruction that passes the operand check does to the state (R105), with the advance (R108). -/
inductive Effect (s : State) : Instr → State → Prop where
  | register (i : Instr) (d : RegIdx) (v : Word)
      (hi : i.kind = .ldi ∨ i.kind = .ld ∨ i.kind = .add ∨ i.kind = .sub ∨ i.kind = .mul ∨ i.kind = .and ∨
        i.kind = .or ∨ i.kind = .not) : Effect s i ((s.setReg d v).setPc (s.pc + 1#16))
  | word (r : RegIdx) (a : Half) (ha : a.toNat < s.cfg.memWords) :
      Effect s (.st (regByte r) a) ((s.storeWord a.toNat (s.reg r)).setPc (s.pc + 1#16))
  | flags (a b : RegIdx) :
      Effect s (.cmp (regByte a) (regByte b)) ((s.setPsw (compareFlags (s.reg a) (s.reg b))).setPc (s.pc + 1#16))
  | output (r : RegIdx) : Effect s (.prn (regByte r)) ((s.emit (s.reg r)).setPc (s.pc + 1#16))
  | je (t : Half) : Effect s (.je t) (s.setPc (if s.zFlag then t else s.pc + 1#16))
  | jne (t : Half) : Effect s (.jne t) (s.setPc (if s.zFlag then s.pc + 1#16 else t))
  | halt : Effect s .hlt s.halt
  | none : Effect s .nop (s.setPc (s.pc + 1#16))

/-- A three-register form either takes the fault of its first bad byte or writes one register. -/
theorem threeRegister_cases (f : Word → Word → Word) (rd ra rb : Byte) (s : State) :
    (∃ p b, [((1 : Fin 4), rd), (2, ra), (3, rb)].find? (fun q => decide (15 < q.2.toNat)) = some (p, b) ∧
        threeRegister f rd ra rb s = .next (s.fail (.registerIndexOutOfRange b p))) ∨
    ([((1 : Fin 4), rd), (2, ra), (3, rb)].find? (fun q => decide (15 < q.2.toNat)) = none ∧
      ∃ d v, threeRegister f rd ra rb s = .next ((s.setReg d v).setPc (s.pc + 1#16))) := by
  by_cases hd : 15 < rd.toNat
  · exact .inl ⟨1, rd, by simp [hd], by rw [threeRegister, withRegister_bad _ hd]⟩
  · obtain ⟨d, rfl⟩ := exists_regByte (Nat.le_of_not_lt hd)
    by_cases ha : 15 < ra.toNat
    · refine .inl ⟨2, ra, ?_, ?_⟩
      · have := d.isLt
        simp [ha]
        omega
      · rw [threeRegister, withRegister_regByte, withRegister_bad _ ha]
    · obtain ⟨a, rfl⟩ := exists_regByte (Nat.le_of_not_lt ha)
      by_cases hb : 15 < rb.toNat
      · refine .inl ⟨3, rb, ?_, ?_⟩
        · have := d.isLt
          have := a.isLt
          simp [hb]
          omega
        · rw [threeRegister, withRegister_regByte, withRegister_regByte, withRegister_bad _ hb]
      · obtain ⟨b, rfl⟩ := exists_regByte (Nat.le_of_not_lt hb)
        refine .inr ⟨?_, d, _, threeRegister_regByte f d a b s⟩
        have := d.isLt
        have := a.isLt
        have := b.isLt
        simp
        omega

/-- One register byte at byte number 1: bad, or a register. -/
theorem singleByte_cases (b : Byte) :
    ([((1 : Fin 4), b)].find? (fun q => decide (15 < q.2.toNat)) = some (1, b) ∧ 15 < b.toNat) ∨
    ([((1 : Fin 4), b)].find? (fun q => decide (15 < q.2.toNat)) = none ∧ ∃ r, b = regByte r) := by
  by_cases h : 15 < b.toNat
  · exact .inl ⟨by simp [h], h⟩
  · exact .inr ⟨by simp; omega, exists_regByte (Nat.le_of_not_lt h)⟩

/-- Every instruction either takes the fault of its operand check or has its effect; nothing else can happen (R104, R105). -/
theorem exec_cases (i : Instr) (s : State) :
    (∃ c, operandFault s.cfg.memWords i = some c ∧ exec i s = .next (s.fail c)) ∨
    (operandFault s.cfg.memWords i = none ∧ ∃ t, exec i s = .next t ∧ Effect s i t) := by
  cases i with
  | ldi rd imm =>
    obtain ⟨hf, hb⟩ | ⟨hf, r, rfl⟩ := singleByte_cases rd
    · exact .inl ⟨.registerIndexOutOfRange rd 1,
        by simp only [operandFault, Instr.firstBadRegister, Instr.registerBytes, hf],
        by rw [exec, execLdi, withRegister_bad _ hb]⟩
    · refine .inr ⟨by simp only [operandFault, Instr.firstBadRegister, Instr.registerBytes, hf, dataAccess], _, ?_,
        .register _ r (zeroExtend imm) (by simp [Instr.kind])⟩
      rw [exec, execLdi, withRegister_regByte, advance_eq]
      rfl
  | ld rd addr =>
    obtain ⟨hf, hb⟩ | ⟨hf, r, rfl⟩ := singleByte_cases rd
    · exact .inl ⟨.registerIndexOutOfRange rd 1,
        by simp only [operandFault, Instr.firstBadRegister, Instr.registerBytes, hf],
        by rw [exec, execLd, withRegister_bad _ hb]⟩
    · by_cases ha : addr.toNat < s.cfg.memWords
      · refine .inr ⟨?_, _, ?_, .register _ r (s.loadWord addr.toNat) (by simp [Instr.kind])⟩
        · simp only [operandFault, Instr.firstBadRegister, Instr.registerBytes, hf, dataAccess]
          rw [if_neg (by omega)]
        · rw [exec, execLd, withRegister_regByte, withAddress_inRange ha, advance_eq]
          rfl
      · refine .inl ⟨.addressOutOfRange .load addr, ?_, ?_⟩
        · simp only [operandFault, Instr.firstBadRegister, Instr.registerBytes, hf, dataAccess]
          rw [if_pos (by omega)]
        · rw [exec, execLd, withRegister_regByte, withAddress_outOfRange (by omega)]
  | st rs addr =>
    obtain ⟨hf, hb⟩ | ⟨hf, r, rfl⟩ := singleByte_cases rs
    · exact .inl ⟨.registerIndexOutOfRange rs 1,
        by simp only [operandFault, Instr.firstBadRegister, Instr.registerBytes, hf],
        by rw [exec, execSt, withRegister_bad _ hb]⟩
    · by_cases ha : addr.toNat < s.cfg.memWords
      · refine .inr ⟨?_, _, ?_, .word r addr ha⟩
        · simp only [operandFault, Instr.firstBadRegister, Instr.registerBytes, hf, dataAccess]
          rw [if_neg (by omega)]
        · rw [exec, execSt, withRegister_regByte, withAddress_inRange ha, advance_eq]
          rfl
      · refine .inl ⟨.addressOutOfRange .store addr, ?_, ?_⟩
        · simp only [operandFault, Instr.firstBadRegister, Instr.registerBytes, hf, dataAccess]
          rw [if_pos (by omega)]
        · rw [exec, execSt, withRegister_regByte, withAddress_outOfRange (by omega)]
  | add rd ra rb =>
    obtain ⟨p, b, hf, hx⟩ | ⟨hf, d, v, hx⟩ := threeRegister_cases (fun a b => a + b) rd ra rb s
    · exact .inl ⟨.registerIndexOutOfRange b p,
        by simp only [operandFault, Instr.firstBadRegister, Instr.registerBytes, hf], hx⟩
    · exact .inr ⟨by simp only [operandFault, Instr.firstBadRegister, Instr.registerBytes, hf, dataAccess], _, hx,
        .register _ d v (by simp [Instr.kind])⟩
  | sub rd ra rb =>
    obtain ⟨p, b, hf, hx⟩ | ⟨hf, d, v, hx⟩ := threeRegister_cases (fun a b => a - b) rd ra rb s
    · exact .inl ⟨.registerIndexOutOfRange b p,
        by simp only [operandFault, Instr.firstBadRegister, Instr.registerBytes, hf], hx⟩
    · exact .inr ⟨by simp only [operandFault, Instr.firstBadRegister, Instr.registerBytes, hf, dataAccess], _, hx,
        .register _ d v (by simp [Instr.kind])⟩
  | mul rd ra rb =>
    obtain ⟨p, b, hf, hx⟩ | ⟨hf, d, v, hx⟩ := threeRegister_cases (fun a b => a * b) rd ra rb s
    · exact .inl ⟨.registerIndexOutOfRange b p,
        by simp only [operandFault, Instr.firstBadRegister, Instr.registerBytes, hf], hx⟩
    · exact .inr ⟨by simp only [operandFault, Instr.firstBadRegister, Instr.registerBytes, hf, dataAccess], _, hx,
        .register _ d v (by simp [Instr.kind])⟩
  | and rd ra rb =>
    obtain ⟨p, b, hf, hx⟩ | ⟨hf, d, v, hx⟩ := threeRegister_cases (fun a b => a &&& b) rd ra rb s
    · exact .inl ⟨.registerIndexOutOfRange b p,
        by simp only [operandFault, Instr.firstBadRegister, Instr.registerBytes, hf], hx⟩
    · exact .inr ⟨by simp only [operandFault, Instr.firstBadRegister, Instr.registerBytes, hf, dataAccess], _, hx,
        .register _ d v (by simp [Instr.kind])⟩
  | or rd ra rb =>
    obtain ⟨p, b, hf, hx⟩ | ⟨hf, d, v, hx⟩ := threeRegister_cases (fun a b => a ||| b) rd ra rb s
    · exact .inl ⟨.registerIndexOutOfRange b p,
        by simp only [operandFault, Instr.firstBadRegister, Instr.registerBytes, hf], hx⟩
    · exact .inr ⟨by simp only [operandFault, Instr.firstBadRegister, Instr.registerBytes, hf, dataAccess], _, hx,
        .register _ d v (by simp [Instr.kind])⟩
  | not rd =>
    obtain ⟨hf, hb⟩ | ⟨hf, r, rfl⟩ := singleByte_cases rd
    · exact .inl ⟨.registerIndexOutOfRange rd 1,
        by simp only [operandFault, Instr.firstBadRegister, Instr.registerBytes, hf],
        by rw [exec, execNot, withRegister_bad _ hb]⟩
    · refine .inr ⟨by simp only [operandFault, Instr.firstBadRegister, Instr.registerBytes, hf, dataAccess], _, ?_,
        .register _ r (~~~ (s.reg r)) (by simp [Instr.kind])⟩
      rw [exec, execNot, withRegister_regByte, advance_eq]
      rfl
  | cmp ra rb =>
    by_cases ha : 15 < ra.toNat
    · exact .inl ⟨.registerIndexOutOfRange ra 1,
          by simp [operandFault, Instr.firstBadRegister, Instr.registerBytes, ha],
        by rw [exec, execCmp, withRegister_bad _ ha]⟩
    · obtain ⟨a, rfl⟩ := exists_regByte (Nat.le_of_not_lt ha)
      have := a.isLt
      have ha' : ¬ 15 < a.val := by omega
      by_cases hb : 15 < rb.toNat
      · exact .inl ⟨.registerIndexOutOfRange rb 2,
          by simp [operandFault, Instr.firstBadRegister, Instr.registerBytes, ha', hb],
          by rw [exec, execCmp, withRegister_regByte, withRegister_bad _ hb]⟩
      · obtain ⟨b, rfl⟩ := exists_regByte (Nat.le_of_not_lt hb)
        have := b.isLt
        have hb' : ¬ 15 < b.val := by omega
        refine .inr ⟨by simp [operandFault, Instr.firstBadRegister, Instr.registerBytes, ha', hb', dataAccess], _, ?_,
          .flags a b⟩
        rw [exec, execCmp, withRegister_regByte, withRegister_regByte, advance_eq]
        rfl
  | je t =>
    refine .inr ⟨rfl, _, ?_, .je t⟩
    rw [exec, execJe]
    split <;> rfl
  | jne t =>
    refine .inr ⟨rfl, _, ?_, .jne t⟩
    rw [exec, execJne]
    split <;> rfl
  | hlt => exact .inr ⟨rfl, _, rfl, .halt⟩
  | prn rs =>
    obtain ⟨hf, hb⟩ | ⟨hf, r, rfl⟩ := singleByte_cases rs
    · exact .inl ⟨.registerIndexOutOfRange rs 1,
        by simp only [operandFault, Instr.firstBadRegister, Instr.registerBytes, hf],
        by rw [exec, execPrn, withRegister_bad _ hb]⟩
    · refine .inr ⟨by simp only [operandFault, Instr.firstBadRegister, Instr.registerBytes, hf, dataAccess], _, ?_,
        .output r⟩
      rw [exec, execPrn, withRegister_regByte, advance_eq]
      rfl
  | nop => exact .inr ⟨rfl, _, rfl, .none⟩

/-! ### What `step` can do (R110) -/

/-- The four ways of a step: an ended core stays, a fetch out of range, an undefined opcode, or the decoded instruction. -/
theorem step_cases (s : State) :
    (s.run ≠ .running ∧ step s = .next s) ∨
    (s.run = .running ∧ s.cfg.memWords ≤ s.pc.toNat ∧ step s = .next (s.fail (.addressOutOfRange .fetch s.pc))) ∨
    (s.run = .running ∧ s.pc.toNat < s.cfg.memWords ∧
      (∃ e, decode s.cfg.opc (s.mem.readWord s.pc.toNat) = .error e) ∧
      step s = .next ((s.setIr (s.mem.readWord s.pc.toNat)).fail .undefinedOpcode)) ∨
    (s.run = .running ∧ s.pc.toNat < s.cfg.memWords ∧
      ∃ i, decode s.cfg.opc (s.mem.readWord s.pc.toNat) = .ok i ∧
        step s = exec i (s.setIr (s.mem.readWord s.pc.toNat))) := by
  rcases hr : s.run with _ | _ | _
  · right
    by_cases h : s.pc.toNat < s.cfg.memWords
    · right
      rcases hd : decode s.cfg.opc (s.mem.readWord s.pc.toNat) with e | i
      · refine .inl ⟨rfl, h, ⟨e, rfl⟩, ?_⟩
        simp [step, hr, cycle, fetch_inRange h, decodeIr, hd, raiseUndefinedOpcode]
      · refine .inr ⟨rfl, h, i, rfl, ?_⟩
        simp [step, hr, cycle, fetch_inRange h, decodeIr, hd]
    · refine .inl ⟨rfl, by omega, ?_⟩
      simp [step, hr, cycle, fetch_outOfRange (Nat.le_of_not_lt h), raiseFetch]
  · exact .inl ⟨by simp, by simp [step, hr]⟩
  · exact .inl ⟨by simp, by simp [step, hr]⟩

/-! ### Runs (R111) -/

@[simp] theorem run_zero (s : State) : Host.Core.run core 0 s = .next s := rfl

/-- A run of `k + 1` steps is a step and then a run of `k`. -/
theorem run_succ_of_step {s t : State} (h : step s = .next t) (k : Nat) :
    Host.Core.run core (k + 1) s = Host.Core.run core k t := by
  have hc : core.step s = .next t := h
  simp only [Host.Core.run, hc]

end Sys2Proof.Machine
end

