-- ==== Sys2Proof/Tests/Slice0.lean ====
section
/-! SUPPORT. The model's own tests: decoding of words written out from 30_encoding.md (R79, R80, R88), ill-formed terms, one
or two steps for each instruction with the expected values of 95_test_vectors.md (S, V numbers), and one witness for each
statement with hypotheses. -/

namespace Sys2Proof.Tests

open Sys2Proof Sys2Proof.Machine

/-! ### Decoding: one word a constructor, the bytes from the spec's encoding -/

theorem test_decode_ldi : decode defaultOpcodes 0x00050001#32 = .ok (.ldi 0#8 5#16) := by decide
theorem test_decode_ld : decode defaultOpcodes 0x12340302#32 = .ok (.ld 3#8 0x1234#16) := by decide
theorem test_decode_st : decode defaultOpcodes 0x00FF0F03#32 = .ok (.st 15#8 0x00FF#16) := by decide
theorem test_decode_add : decode defaultOpcodes 0x01000204#32 = .ok (.add 2#8 0#8 1#8) := by decide
theorem test_decode_sub : decode defaultOpcodes 0x02010105#32 = .ok (.sub 1#8 1#8 2#8) := by decide
theorem test_decode_mul : decode defaultOpcodes 0x01000206#32 = .ok (.mul 2#8 0#8 1#8) := by decide
theorem test_decode_and : decode defaultOpcodes 0x01000207#32 = .ok (.and 2#8 0#8 1#8) := by decide
theorem test_decode_or : decode defaultOpcodes 0x09090508#32 = .ok (.or 5#8 9#8 9#8) := by decide
theorem test_decode_not : decode defaultOpcodes 0xCDAB0109#32 = .ok (.not 1#8) := by decide
theorem test_decode_cmp : decode defaultOpcodes 0x9909040A#32 = .ok (.cmp 4#8 9#8) := by decide
theorem test_decode_je : decode defaultOpcodes 0x0001020B#32 = .ok (.je 0x0102#16) := by decide
theorem test_decode_jne : decode defaultOpcodes 0x0000020C#32 = .ok (.jne 2#16) := by decide
theorem test_decode_hlt : decode defaultOpcodes 0xFFFFFF0D#32 = .ok .hlt := by decide
theorem test_decode_prn : decode defaultOpcodes 0x0000020E#32 = .ok (.prn 2#8) := by decide
theorem test_decode_nop : decode defaultOpcodes 0x0000000F#32 = .ok .nop := by decide

/-- Undefined opcodes are refused by name (V88, V89), a short byte list too. -/
theorem test_decode_undefined :
    decode defaultOpcodes 0x00000000#32 = .error (.undefinedOpcode 0#8) ∧
    decode defaultOpcodes 0x12345610#32 = .error (.undefinedOpcode 0x10#8) ∧
    decodeBytes defaultOpcodes [0x0F#8] = .error (.truncated 1) := by decide

/-- A register byte above 15 still decodes (R102): it is an operand fault, not another instruction. -/
theorem test_decode_bad_register : decode defaultOpcodes 0x12111004#32 = .ok (.add 0x10#8 0x11#8 0x12#8) := by decide

theorem test_decodeTableWord :
    decodeTableWord 32 0x01000204 = some (.add 2#8 0#8 1#8) ∧ decodeTableWord 8 0x0F = some .nop ∧
    decodeTableWord 8 0 = none := by decide

/-- The four bytes of a word in image order (R88). -/
theorem test_encode_bytes :
    encode defaultOpcodes (.ld 3#8 0x1234#16) = wordOfBytes 0x02#8 0x03#8 0x34#8 0x12#8 ∧
    encode defaultOpcodes (.je 0x0102#16) = wordOfBytes 0x0B#8 0x02#8 0x01#8 0x00#8 := by decide

/-! ### Ill-formed instructions: each register byte is checked -/

theorem test_wellFormed_one_register :
    (Instr.ldi 16#8 5#16).wellFormed = false ∧ (Instr.ld 16#8 0#16).wellFormed = false ∧
    (Instr.st 255#8 0#16).wellFormed = false ∧ (Instr.not 16#8).wellFormed = false ∧
    (Instr.prn 255#8).wellFormed = false ∧ (Instr.ldi 15#8 0xFFFF#16).wellFormed = true := by decide

theorem test_wellFormed_three_registers :
    (Instr.add 16#8 0#8 0#8).wellFormed = false ∧ (Instr.add 0#8 16#8 0#8).wellFormed = false ∧
    (Instr.add 0#8 0#8 16#8).wellFormed = false ∧ (Instr.sub 0#8 0#8 16#8).wellFormed = false ∧
    (Instr.mul 0#8 16#8 0#8).wellFormed = false ∧ (Instr.and 16#8 0#8 0#8).wellFormed = false ∧
    (Instr.or 0#8 0#8 32#8).wellFormed = false ∧ (Instr.add 15#8 15#8 15#8).wellFormed = true := by decide

theorem test_wellFormed_cmp :
    (Instr.cmp 16#8 0#8).wellFormed = false ∧ (Instr.cmp 0#8 0x20#8).wellFormed = false ∧
    (Instr.cmp 15#8 15#8).wellFormed = true := by decide

/-! ### One step from small states -/

/-- The reset state with a capacity of 16 words, as in the vectors with MEM_WORDS = 16. -/
def small : State := { State.reset with cfg := { resetConfig with memWords := 16 } }

/-- A word placed at the pc of a state. -/
def load (w : Word) (s : State) : State := s.storeWord s.pc.toNat w

/-- The state after one step. -/
def after (s : State) : State :=
  match step s with
  | .next t => t
  | .fault _ => s
  | .refused _ => s

/-- Two source registers set. -/
def pair (a b : Word) : State := (State.reset.setReg 0 a).setReg 1 b

/-- V2. -/
theorem test_ldi_zero_extends :
    (after (load 0xFFFF0F01#32 (State.reset.setReg 15 0xAAAAAAAA#32))).reg 15 = 0x0000FFFF#32 := by decide

/-- V4. -/
theorem test_ldi_bad_register :
    (after (load 0x00051001#32 State.reset)).fault = some ⟨.registerIndexOutOfRange 16#8 1, 0x01#8, 0#16⟩ ∧
    (after (load 0x00051001#32 State.reset)).pc = 0#16 := by decide

/-- V6: the instruction's own word. -/
theorem test_ld_own_word : (after (load 0x00000102#32 State.reset)).reg 1 = 0x00000102#32 := by decide

/-- V7: an address equal to the capacity. -/
theorem test_ld_at_capacity :
    (after (load 0x00100102#32 (small.setPc 1#16))).fault =
      some ⟨.addressOutOfRange .load 16#16, 0x02#8, 1#16⟩ := by decide

/-- V10: the last word of a full memory. -/
theorem test_st_last_word :
    (after (load 0xFFFF0203#32 (State.reset.setReg 2 0xFFFFFFFF#32))).loadWord 0xFFFF = 0xFFFFFFFF#32 := by decide

/-- V9, byte by byte: byte 0 of the word is the least significant. -/
theorem test_st_little_endian :
    (after (load 0x00200203#32 (State.reset.setReg 2 0x0A0B0C0D#32))).mem.readByte 0x80 = 0x0D#8 ∧
    (after (load 0x00200203#32 (State.reset.setReg 2 0x0A0B0C0D#32))).mem.readByte 0x83 = 0x0A#8 := by decide

/-- V21 (S1). -/
theorem test_add_wraps : (after (load 0x01000204#32 (pair 0xFFFFFFFF#32 1#32))).reg 2 = 0#32 := by decide

/-- V41: the lowest byte position is reported. -/
theorem test_add_bad_registers :
    (after (load 0x12111004#32 State.reset)).fault = some ⟨.registerIndexOutOfRange 0x10#8 1, 0x04#8, 0#16⟩ := by decide

/-- V24. -/
theorem test_sub_borrows : (after (load 0x01000205#32 (pair 3#32 5#32))).reg 2 = 0xFFFFFFFE#32 := by decide

/-- V31. -/
theorem test_mul_low_half : (after (load 0x01000206#32 (pair 0x00010001#32 0x00010001#32))).reg 2 = 0x00020001#32 := by
  decide

/-- V33. -/
theorem test_and : (after (load 0x01000207#32 (pair 0xF0F0F0F0#32 0x0FF00FF0#32))).reg 2 = 0x00F000F0#32 := by decide

/-- V35. -/
theorem test_or : (after (load 0x01000208#32 (pair 0xF0F0F0F0#32 0x0FF00FF0#32))).reg 2 = 0xFFF0FFF0#32 := by decide

/-- V37. -/
theorem test_not : (after (load 0x00000709#32 (State.reset.setReg 7 0x0000FFFF#32))).reg 7 = 0xFFFF0000#32 := by decide

/-- V50, V51, V52, V53. -/
theorem test_cmp_outcomes :
    (after (load 0x0001000A#32 ((pair 0#32 0#32).setPsw 0b10#2))).psw = 0b01#2 ∧
    (after (load 0x0001000A#32 ((pair 3#32 5#32).setPsw 0b01#2))).psw = 0b10#2 ∧
    (after (load 0x0001000A#32 ((pair 5#32 3#32).setPsw 0b01#2))).psw = 0b00#2 ∧
    (after (load 0x0001000A#32 (pair 0xFFFFFFFF#32 1#32))).psw = 0b00#2 := by decide

/-- V58: the flags stay. -/
theorem test_cmp_bad_register :
    (after (load 0x0020000A#32 (State.reset.setPsw 0b01#2))).fault =
      some ⟨.registerIndexOutOfRange 32#8 2, 0x0A#8, 0#16⟩ ∧
    (after (load 0x0020000A#32 (State.reset.setPsw 0b01#2))).psw = 0b01#2 := by decide

/-- V59, V61, V62. -/
theorem test_je :
    (after (load 0x0000050B#32 ((State.reset.setPc 3#16).setPsw 0b01#2))).pc = 5#16 ∧
    (after (load 0x0000050B#32 ((State.reset.setPc 3#16).setPsw 0b10#2))).pc = 4#16 ∧
    (after (load 0x0000000B#32 ((State.reset.setPc 9#16).setPsw 0b01#2))).pc = 0#16 := by decide

/-- V65, V66. -/
theorem test_jne :
    (after (load 0x0000020C#32 ((State.reset.setPc 6#16).setPsw 0b10#2))).pc = 2#16 ∧
    (after (load 0x0000020C#32 ((State.reset.setPc 6#16).setPsw 0b01#2))).pc = 7#16 := by decide

/-- V68: the jump leaves the memory, the next fetch faults, with the opcode of the stale ir. -/
theorem test_je_out_of_memory :
    (after (load 0x0000200B#32 ((small.setPc 1#16).setPsw 0b01#2))).run = .running ∧
    (after (after (load 0x0000200B#32 ((small.setPc 1#16).setPsw 0b01#2)))).fault =
      some ⟨.addressOutOfRange .fetch 0x20#16, 0x0B#8, 0x20#16⟩ := by decide

/-- V81, V82. -/
theorem test_hlt :
    (after (load 0xFFFFFF0D#32 (State.reset.setPc 4#16))).run = .halted ∧
    (after (load 0xFFFFFF0D#32 (State.reset.setPc 4#16))).pc = 4#16 ∧
    after (after (load 0xFFFFFF0D#32 (State.reset.setPc 4#16))) = after (load 0xFFFFFF0D#32 (State.reset.setPc 4#16)) := by
  decide

/-- V85. -/
theorem test_prn :
    (after (load 0x0000000E#32 ((State.reset.setReg 0 0xFFFFFFFF#32).emit 8#32))).out = [8#32, 4294967295#32] := by decide

/-- V86: nothing is emitted. -/
theorem test_prn_bad_register :
    (after (load 0x0000FF0E#32 State.reset)).out = [] ∧
    (after (load 0x0000FF0E#32 State.reset)).fault = some ⟨.registerIndexOutOfRange 255#8 1, 0x0E#8, 0#16⟩ := by decide

/-- V90: the pc wraps. -/
theorem test_nop_wraps :
    (after (load 0x0000000F#32 (State.reset.setPc 0xFFFF#16))).pc = 0#16 ∧
    (after (load 0x0000000F#32 (State.reset.setPc 0xFFFF#16))).ir = 0x0000000F#32 := by decide

/-- V88: an all-zero word faults, so the first step after a reset with nothing loaded does. -/
theorem test_zero_word : (after State.reset).fault = some ⟨.undefinedOpcode, 0#8, 0#16⟩ := by decide

/-- V12: the register check comes before the address check. -/
theorem test_priority :
    (after (load 0xFFFF1002#32 small)).fault = some ⟨.registerIndexOutOfRange 16#8 1, 0x02#8, 0#16⟩ := by decide

/-- V92: the store is seen by the next fetch. -/
theorem test_store_then_fetch :
    (after (after (load 0x00010203#32 (State.reset.setReg 2 0x0000000D#32)))).run = .halted := by decide

/-- The host's probe: a word placed on reset runs at once. -/
theorem test_withFetchWord : (after (State.reset.withFetchWord 32 0x00050001)).reg 0 = 5#32 := by decide

/-- P3's image booted: words in the packing of R55, the first step faults. -/
theorem test_boot :
    ((boot resetConfig [0xFF#8, 0#8, 0#8, 0#8, 0x01#8, 0#8, 0x05#8, 0#8]).map after).map State.fault =
      some (some ⟨.undefinedOpcode, 0xFF#8, 0#16⟩) := by decide

/-- S8: 64 bytes fit 16 words, 68 do not. -/
theorem test_boot_size :
    imageFits small.cfg (List.replicate 64 0#8) = true ∧ imageFits small.cfg (List.replicate 65 0#8) = false ∧
    (boot small.cfg (List.replicate 68 0#8)).isSome = false := by decide

/-- Reset out of Halted (R202): the memory stays, the registers do not. -/
theorem test_hostReset :
    (hostReset ((State.reset.setReg 3 7#32).storeWord 2 9#32).halt).run = .running ∧
    (hostReset ((State.reset.setReg 3 7#32).storeWord 2 9#32).halt).reg 3 = 0#32 ∧
    (hostReset ((State.reset.setReg 3 7#32).storeWord 2 9#32).halt).loadWord 2 = 9#32 := by decide

/-- The host's reading of the result: P1's `8`, V85's numeral, S7's report. -/
theorem test_host_result :
    renderValue 8#32 = "8" ∧ renderValue 0xFFFFFFFF#32 = "4294967295" ∧ hostOutcome small.halt = some .normal ∧
    hostOutcome (after State.reset) = some (.abnormal 0#8 0#16) ∧ hostOutcome small = none := by decide

/-- The cause and kind codes of R173. -/
theorem test_fault_codes :
    FaultCause.undefinedOpcode.code = 1 ∧ (FaultCause.registerIndexOutOfRange 16#8 1).code = 2 ∧
    (FaultCause.addressOutOfRange .fetch 0#16).code = 3 ∧
    [AccessKind.fetch, .load, .store].map AccessKind.code = [0, 1, 2] := by decide

/-- The observation port of `NOT r1` with unused bytes AB CD (R186). -/
theorem test_dbgPort :
    (dbgPort (load 0xCDAB0109#32 (State.reset.withDbg true))).map (fun d => (d.kind, d.ir)) =
      some (.not, [0x09#8, 0x01#8, 0xAB#8, 0xCD#8]) := by decide

/-- The print port pulses in the step of a `PRN`, the fault port after a fault. -/
theorem test_ports :
    outPort (load 0x0000020E#32 (State.reset.setReg 2 8#32)) = some 8#32 ∧
    outPort (load 0x0000000F#32 State.reset) = none ∧
    faultPort (after State.reset) = some ⟨.undefinedOpcode, 0#8, 0#16⟩ := by decide

/-- A write of the unlisted value removes the entry (the canonical form). -/
theorem test_canonical : ((State.reset.storeWord 3 5#32).storeWord 3 0#32).mem = [] := by decide

/-! ### Witnesses: concrete inputs that meet the hypotheses of each statement -/

/-- Another injective opcode map: the default one with `NOP` at 0x00. -/
def otherOpcodes : OpcodeMap := { defaultOpcodes with nop := 0#8 }

theorem witness_DecodeUndoesEncode : defaultOpcodes.injective = true ∧ otherOpcodes.injective = true := by decide

theorem witness_EncodeOfDecodeKeepsUsedBytes :
    decode defaultOpcodes 0xCDAB0109#32 = .ok (.not 1#8) ∧ 3 < 4 ∧ ¬ 3 < (Instr.not 1#8).kind.usedBytes := by decide

theorem witness_UnusedBytesNeverMatter :
    (decodeKind defaultOpcodes (byteAt 0xCDAB0109#32 0) = some .not ∧
      ∀ n < Kind.not.usedBytes, byteAt 0x00000109#32 n = byteAt 0xCDAB0109#32 n) ∧
    ∃ t, exec (.not 1#8) { State.reset with ir := 0xCDAB0109#32 } = .next t := ⟨by decide, _, rfl⟩

theorem witness_FirstByteAloneSelectsTheInstruction :
    (defaultOpcodes.injective = true ∧ defaultOpcodes.opcode .nop = (0xFFFFFF0F#32 : Word).setWidth 8) ∧
    (∀ k ∈ Kind.all, defaultOpcodes.opcode k ≠ (0xFFFFFF10#32 : Word).setWidth 8) ∧
    (0x0000000F#32 : Word).setWidth 8 = (0xFFFFFF0F#32 : Word).setWidth 8 := by decide

/-- The opcode clause of each instruction statement, at words with every other bit set. -/
theorem witness_opcode_clauses :
    (0xFFFFFF01#32 : Word).toNat % 256 = 0x01 ∧ (0xFFFFFF02#32 : Word).toNat % 256 = 0x02 ∧
    (0xFFFFFF03#32 : Word).toNat % 256 = 0x03 ∧ (0xFFFFFF04#32 : Word).toNat % 256 = 0x04 ∧
    (0xFFFFFF05#32 : Word).toNat % 256 = 0x05 ∧ (0xFFFFFF06#32 : Word).toNat % 256 = 0x06 ∧
    (0xFFFFFF07#32 : Word).toNat % 256 = 0x07 ∧ (0xFFFFFF08#32 : Word).toNat % 256 = 0x08 ∧
    (0xFFFFFF09#32 : Word).toNat % 256 = 0x09 ∧ (0xFFFFFF0A#32 : Word).toNat % 256 = 0x0A ∧
    (0xFFFFFF0B#32 : Word).toNat % 256 = 0x0B ∧ (0xFFFFFF0C#32 : Word).toNat % 256 = 0x0C ∧
    (0xFFFFFF0D#32 : Word).toNat % 256 = 0x0D ∧ (0xFFFFFF0E#32 : Word).toNat % 256 = 0x0E ∧
    (0xFFFFFF0F#32 : Word).toNat % 256 = 0x0F := by decide

/-- The fault clause of each instruction statement, at the first byte past 15 and at each position. -/
theorem witness_bad_register_clauses :
    (Instr.ldi 16#8 5#16).firstBadRegister = some (1, 16#8) ∧ (Instr.ld 16#8 5#16).firstBadRegister = some (1, 16#8) ∧
    (Instr.st 16#8 5#16).firstBadRegister = some (1, 16#8) ∧ (Instr.add 15#8 15#8 16#8).firstBadRegister = some (3, 16#8) ∧
    (Instr.sub 15#8 16#8 17#8).firstBadRegister = some (2, 16#8) ∧
    (Instr.mul 16#8 17#8 18#8).firstBadRegister = some (1, 16#8) ∧
    (Instr.and 0#8 0#8 255#8).firstBadRegister = some (3, 255#8) ∧
    (Instr.or 0#8 16#8 0#8).firstBadRegister = some (2, 16#8) ∧ (Instr.not 16#8).firstBadRegister = some (1, 16#8) ∧
    (Instr.cmp 15#8 16#8).firstBadRegister = some (2, 16#8) ∧ (Instr.prn 255#8).firstBadRegister = some (1, 255#8) := by
  decide

/-- The range clauses of LD and ST at the last address and at the capacity, the read-back clause of ST, the top bit of AND
and OR. -/
theorem witness_address_clauses :
    (15#16 : Half).toNat < small.cfg.memWords ∧ small.cfg.memWords ≤ (16#16 : Half).toNat ∧ small.mem.wf = true ∧
    3 < 4 ∧ 31 < 32 := by decide

theorem witness_jump_clauses :
    (small.run = .running ∧ (small.setPsw 1#2).psw.getLsbD 0 = true ∧ small.psw.getLsbD 0 = false ∧
      small.cfg.memWords ≤ (16#16 : Half).toNat) ∧
    (∃ t, exec (.je 16#16) (small.setPsw 1#2) = .next t) ∧ ∃ t, exec (.jne 16#16) small = .next t :=
  ⟨by decide, ⟨_, rfl⟩, ⟨_, rfl⟩⟩

theorem witness_OnlyCompareWritesTheFlags :
    ((pair 3#32 3#32).reg 0).toNat = ((pair 3#32 3#32).reg 1).toNat ∧
    ((pair 3#32 4#32).reg 0).toNat < ((pair 3#32 4#32).reg 1).toNat ∧
    ((pair 4#32 3#32).reg 1).toNat < ((pair 4#32 3#32).reg 0).toNat ∧
    (∃ t, step (load 0x0001000A#32 State.reset) = .next t ∧ t.psw ≠ (load 0x0001000A#32 State.reset).psw) ∧
    State.reset.psw ≠ 0b11#2 := ⟨by decide, by decide, by decide, ⟨_, rfl, by decide⟩, by decide⟩

theorem witness_EveryInstructionCompletes :
    (Instr.ld 15#8 15#16).wellFormed = true ∧ dataAccess (.ld 15#8 15#16) = some (.load, 15#16) ∧
    (15#16 : Half).toNat < small.cfg.memWords ∧ Instr.hlt.wellFormed = true ∧ dataAccess .hlt = none := by decide

theorem witness_EachInstructionHasOneEffect :
    operandFault small.cfg.memWords (.st 15#8 15#16) = none ∧ (∃ t, exec (.st 15#8 15#16) small = .next t) ∧
    operandFault small.cfg.memWords (.not 15#8) = none ∧ (∃ t, exec (.not 15#8) small = .next t) ∧
    operandFault small.cfg.memWords (.cmp 0#8 15#8) = none ∧ (∃ t, exec (.cmp 0#8 15#8) small = .next t) ∧
    operandFault small.cfg.memWords (.prn 15#8) = none ∧ (∃ t, exec (.prn 15#8) small = .next t) ∧
    operandFault small.cfg.memWords .hlt = none ∧ (∃ t, exec .hlt small = .next t) ∧
    operandFault small.cfg.memWords (.je 15#16) = none ∧ (∃ t, exec (.je 15#16) small = .next t) :=
  ⟨by decide, ⟨_, rfl⟩, by decide, ⟨_, rfl⟩, by decide, ⟨_, rfl⟩, by decide, ⟨_, rfl⟩, by decide, ⟨_, rfl⟩, by decide,
    ⟨_, rfl⟩⟩

/-- For StepRunsTheDecodedInstruction, OldInstructionWordIsDead and the running clauses of others: a Running state whose pc
is the last word of a small memory. -/
theorem witness_StepRunsTheDecodedInstruction :
    (load 0x0000000F#32 (small.setPc 15#16)).run = .running ∧
    (load 0x0000000F#32 (small.setPc 15#16)).pc.toNat < (load 0x0000000F#32 (small.setPc 15#16)).cfg.memWords ∧
    decode (load 0x0000000F#32 (small.setPc 15#16)).cfg.opc (fetchedWord (load 0x0000000F#32 (small.setPc 15#16))) =
      .ok .nop := by decide

theorem witness_UndefinedOpcodeFaultsWithoutMutation :
    (load 0x12345610#32 small).run = .running ∧ (load 0x12345610#32 small).pc.toNat < small.cfg.memWords ∧
    (∀ k ∈ Kind.all, (load 0x12345610#32 small).cfg.opc.opcode k ≠ (fetchedWord (load 0x12345610#32 small)).setWidth 8) := by
  decide

theorem witness_FetchOutOfRangeFaults :
    (small.setPc 16#16).run = .running ∧ (small.setPc 16#16).cfg.memWords ≤ (small.setPc 16#16).pc.toNat := by decide

theorem witness_BadRegisterByteFaultsFirstPositionReported :
    (load 0x12100F04#32 small).run = .running ∧ (load 0x12100F04#32 small).pc.toNat < small.cfg.memWords ∧
    decode (load 0x12100F04#32 small).cfg.opc (fetchedWord (load 0x12100F04#32 small)) = .ok (.add 15#8 16#8 18#8) ∧
    (Instr.add 15#8 16#8 18#8).firstBadRegister = some (2, 16#8) := by decide

/-- Each place of the fault order, and a cycle without a fault. -/
theorem witness_FaultsAreMetInTheFixedOrder :
    small.run = .running ∧ faultOfCycle (small.setPc 16#16) = some (.addressOutOfRange .fetch 16#16) ∧
    faultOfCycle small = some .undefinedOpcode ∧
    faultOfCycle (load 0xFFFF1002#32 small) = some (.registerIndexOutOfRange 16#8 1) ∧
    faultOfCycle (load 0x00100F03#32 small) = some (.addressOutOfRange .store 16#16) ∧
    faultOfCycle (load 0x000F0F03#32 small) = none := by decide

theorem witness_FaultsChangeNothingElse :
    (small.run = .running ∧ step small = .next (after small) ∧ (after small).run = .faulted) ∧
    step (small.setPc 16#16) = .next (after (small.setPc 16#16)) ∧ (after (small.setPc 16#16)).run = .faulted :=
  ⟨⟨by decide, rfl, by decide⟩, rfl, by decide⟩

theorem witness_RunStateTransitions :
    step small = .next (after small) ∧ (faultOfCycle small).isSome = true ∧
    step (load 0x0000000D#32 small) = .next (after (load 0x0000000D#32 small)) ∧
    faultOfCycle (load 0x0000000D#32 small) = none ∧
    decode small.cfg.opc (fetchedWord (load 0x0000000D#32 small)) = .ok .hlt ∧
    step (load 0x0000000F#32 small) = .next (after (load 0x0000000F#32 small)) ∧
    faultOfCycle (load 0x0000000F#32 small) = none ∧
    decode small.cfg.opc (fetchedWord (load 0x0000000F#32 small)) = .ok .nop ∧
    step small.halt = .next small.halt ∧ small.halt.run ≠ .running :=
  ⟨rfl, by decide, rfl, by decide, by decide, rfl, by decide, by decide, rfl, by decide⟩

theorem witness_EndedCoreIsFrozenUntilReset :
    small.halt.run ≠ .running ∧ (small.fail .undefinedOpcode).run ≠ .running := by decide

/-- A taken JE, a taken JNE, and a JE not taken at the last word of a full memory. -/
theorem witness_NextPcAfterEveryStep :
    (faultOfCycle (load 0x0000000B#32 (State.reset.setPsw 1#2)) = none ∧
      decode defaultOpcodes (fetchedWord (load 0x0000000B#32 (State.reset.setPsw 1#2))) = .ok (.je 0#16) ∧
      (State.reset.setPsw 1#2).psw.getLsbD 0 = true) ∧
    (faultOfCycle (load 0x00FFFF0C#32 State.reset) = none ∧
      decode defaultOpcodes (fetchedWord (load 0x00FFFF0C#32 State.reset)) = .ok (.jne 0xFFFF#16) ∧
      State.reset.psw.getLsbD 0 = false) ∧
    (faultOfCycle (load 0x0000050B#32 (State.reset.setPc 0xFFFF#16)) = none ∧
      decode defaultOpcodes (fetchedWord (load 0x0000050B#32 (State.reset.setPc 0xFFFF#16))) = .ok (.je 5#16)) ∧
    (∃ t, step (load 0x0000000B#32 (State.reset.setPsw 1#2)) = .next t) ∧
    (∃ t, step (load 0x00FFFF0C#32 State.reset) = .next t) ∧
    ∃ t, step (load 0x0000050B#32 (State.reset.setPc 0xFFFF#16)) = .next t :=
  ⟨by decide, by decide, by decide, ⟨_, rfl⟩, ⟨_, rfl⟩, ⟨_, rfl⟩⟩

/-- A Running state and a Faulted one, both with the invariant. -/
theorem witness_EveryStepKeepsTheInvariant :
    ((load 0x00050001#32 small).Inv ∧ step (load 0x00050001#32 small) = .next (after (load 0x00050001#32 small))) ∧
    (after small).Inv ∧ step (after small) = .next (after small) := by
  refine ⟨⟨⟨by decide, by decide, by decide, by decide, by decide, fun r h => ?_⟩, rfl⟩,
    ⟨by decide, by decide, by decide, by decide, by decide, fun r h => ?_⟩, rfl⟩
  · cases h
  · have e : (after small).fault = some ⟨.undefinedOpcode, 0#8, 0#16⟩ := by decide
    rw [e] at h
    cases h
    decide

theorem witness_HostActsGiveTheInvariant :
    (small.cfg.wf = true ∧ boot small.cfg [0x0F#8, 0#8, 0#8, 0#8] = some { small with mem := [(0, 0x0F#8)] }) ∧
    State.reset.Inv :=
  ⟨by decide, by decide, by decide, by decide, by decide, by decide, fun _ h => by cases h⟩

/-- An ST of a register to the last word changes its first byte. -/
theorem witness_OnlyStoreWritesMemory :
    step (load 0x000F0003#32 (small.setReg 0 5#32)) = .next (after (load 0x000F0003#32 (small.setReg 0 5#32))) ∧
    (after (load 0x000F0003#32 (small.setReg 0 5#32))).mem.readByte 60 ≠
      (load 0x000F0003#32 (small.setReg 0 5#32)).mem.readByte 60 := ⟨rfl, by decide⟩

theorem witness_OutputGrowsByWhatThePortShows :
    step (load 0x0000000E#32 small) = .next (after (load 0x0000000E#32 small)) ∧
    outPort (load 0x0000000E#32 small) = some 0#32 := ⟨rfl, by decide⟩

theorem witness_StepKeepsTheConfiguration : ∃ t, Host.Core.run core 2 small = .next t := ⟨_, rfl⟩

theorem witness_FullMemoryHasNoAddressFault :
    State.reset.cfg.memWords = 65536 ∧ State.reset.fault = none ∧ step State.reset = .next (after State.reset) ∧
    (after State.reset).fault = some ⟨.undefinedOpcode, 0#8, 0#16⟩ := ⟨rfl, rfl, rfl, by decide⟩

theorem witness_NegativeFlagIsInvisible :
    (2#2 : BitVec 2).getLsbD 0 = small.psw.getLsbD 0 ∧ ∃ t, Host.Core.run core 2 (load 0x0000020C#32 small) = .next t :=
  ⟨by decide, _, rfl⟩

theorem witness_DebugToggleChangesNothing : ∃ t, Host.Core.run core 2 (load 0x0000000F#32 small) = .next t := ⟨_, rfl⟩

theorem witness_DebugPortShowsTheTracePoint :
    ((load 0x0000000F#32 (small.withDbg true)).cfg.dbgEn = true ∧ (load 0x0000000F#32 (small.withDbg true)).run = .running ∧
      (0#16 : Half).toNat < small.cfg.memWords ∧
      decode defaultOpcodes (fetchedWord (load 0x0000000F#32 (small.withDbg true))) = .ok .nop) ∧
    small.cfg.dbgEn = false ∧ small.halt.run ≠ .running ∧
    (small.setPc 16#16).cfg.memWords ≤ (small.setPc 16#16).pc.toNat ∧
    decode defaultOpcodes (fetchedWord small) = .error (.undefinedOpcode 0#8) := by decide

theorem witness_ReadReturnsTheLastWrite : Memory.wf [(3, 1#8), (7, 2#8)] = true := by decide

theorem witness_CanonicalMemoriesThatReadAlikeAreEqual :
    Memory.wf [(3, 1#8)] = true ∧ ∀ k, Memory.readByte [(3, 1#8)] k = Memory.readByte [(3, 1#8)] k :=
  ⟨by decide, fun _ => rfl⟩

/-- V92's shape: an ST to pc + 1. -/
theorem witness_StoreIsSeenByTheNextFetch :
    (load 0x00010203#32 small).mem.wf = true ∧ (load 0x00010203#32 small).run = .running ∧
    (load 0x00010203#32 small).pc.toNat < small.cfg.memWords ∧
    decode small.cfg.opc (fetchedWord (load 0x00010203#32 small)) = .ok (.st (regByte 2) 1#16) ∧
    (1#16 : Half).toNat < small.cfg.memWords ∧ (1#16 : Half) = (load 0x00010203#32 small).pc + 1#16 := by decide

theorem witness_JumpToItselfRunsForEver :
    (load 0x0000030B#32 ((small.setPc 3#16).setPsw 1#2)).run = .running ∧ (3#16 : Half).toNat < small.cfg.memWords ∧
    decode small.cfg.opc (fetchedWord (load 0x0000030B#32 ((small.setPc 3#16).setPsw 1#2))) = .ok (.je 3#16) ∧
    (small.setPsw 1#2).psw.getLsbD 0 = true := by decide

theorem witness_ImageIsPackedLittleEndian :
    boot small.cfg [0x0F#8, 0#8, 0#8, 0x80#8] = some { small with mem := [(0, 0x0F#8), (3, 0x80#8)] } ∧
    4 * 0 + 4 ≤ [0x0F#8, 0#8, 0#8, 0x80#8].length ∧ [0x0F#8, 0#8, 0#8, 0x80#8].length ≤ 4 := by decide

theorem witness_PlacedWordIsTheOneTheStepRuns :
    small.mem.wf = true ∧ small.cfg.opc = defaultOpcodes ∧ small.pc.toNat < small.cfg.memWords ∧
    decodeTableWord 32 0x00050001 = some (.ldi 0#8 5#16) := by decide

end Sys2Proof.Tests
end

section
namespace Sys2Proof.Machine

/-! ### Faults: the state a fault leaves, as the statements describe it -/

/-- Taking a fault enters Faulted with its record and changes nothing else; the opcode recorded is `ir[7:0]`
(40_cycle.md R107, 60_exceptions.md R174). -/
theorem faultEntry_fail (c : FaultCause) (s : State) : FaultEntry c s (s.fail c) where
  run := rfl
  fault := by rw [State.fail_fault, byteAt_zero_eq_setWidth]
  regs _ := rfl
  bytes _ := rfl
  psw := rfl
  pc := rfl
  ir := rfl
  out := rfl
  cfg := rfl

/-! ### The fetch fault (20_memory.md R53) -/

/-- A Running core whose pc is at or beyond the capacity takes the fetch fault from the state before the fetch. -/
theorem step_fetch_outOfRange {s : State} (hrun : s.run = .running) (hpc : s.cfg.memWords ≤ s.pc.toNat) :
    step s = .next (s.fail (.addressOutOfRange .fetch s.pc)) := by
  obtain ⟨hended, -⟩ | ⟨-, -, hstep⟩ | ⟨-, hin, -⟩ | ⟨-, hin, -⟩ := step_cases s
  · exact absurd hrun hended
  · exact hstep
  · exact absurd hin (Nat.not_lt.mpr hpc)
  · exact absurd hin (Nat.not_lt.mpr hpc)

/-- Settles O26: the step is the fetch fault, and a fault changes nothing but `run` and the record. -/
theorem fetchOutOfRangeFaults : Obligations.FetchOutOfRangeFaults := by
  intro s hrun hpc
  exact ⟨_, step_fetch_outOfRange hrun hpc, faultEntry_fail _ s⟩

end Sys2Proof.Machine
end

section
namespace Sys2Proof

/-! ### The decoder: byte 0 alone selects the kind (30_encoding.md R81) -/

@[simp] theorem kind_operands (k : Kind) (w : Word) : (operands k w).kind = k := by cases k <;> rfl

theorem decode_of_decodeKind_some {m : OpcodeMap} {w : Word} {k : Kind} (h : decodeKind m (byteAt w 0) = some k) :
    decode m w = .ok (operands k w) := by
  simp only [decode, h]

theorem decode_of_decodeKind_none {m : OpcodeMap} {w : Word} (h : decodeKind m (byteAt w 0) = none) :
    decode m w = .error (.undefinedOpcode (byteAt w 0)) := by
  simp only [decode, h]

/-- A word that decodes has the kind the opcode table finds at its byte 0. -/
theorem decodeKind_of_decode_ok {m : OpcodeMap} {w : Word} {i : Instr} (h : decode m w = .ok i) :
    decodeKind m (byteAt w 0) = some i.kind := by
  cases hk : decodeKind m (byteAt w 0) with
  | none => simp [decode_of_decodeKind_none hk] at h
  | some k =>
    obtain rfl : operands k w = i := by simpa [decode_of_decodeKind_some hk] using h
    rw [kind_operands]

theorem exists_decode_ok_kind_iff {m : OpcodeMap} {w : Word} {k : Kind} :
    (∃ i, decode m w = .ok i ∧ i.kind = k) ↔ decodeKind m (byteAt w 0) = some k := by
  constructor
  · rintro ⟨i, hi, rfl⟩
    exact decodeKind_of_decode_ok hi
  · exact fun hk => ⟨operands k w, decode_of_decodeKind_some hk, kind_operands k w⟩

theorem exists_decode_ok_iff {m : OpcodeMap} {w : Word} :
    (∃ i, decode m w = .ok i) ↔ ∃ k, decodeKind m (byteAt w 0) = some k := by
  simp only [← exists_decode_ok_kind_iff]
  exact ⟨fun ⟨i, hi⟩ => ⟨i.kind, i, hi, rfl⟩, fun ⟨_, i, hi, _⟩ => ⟨i, hi⟩⟩

theorem opcode_injective {m : OpcodeMap} (hm : m.injective = true) : Function.Injective m.opcode := fun k k' h =>
  List.inj_on_of_nodup_map (of_decide_eq_true hm) (Kind.mem_all k) (Kind.mem_all k') h

/-- Where no two kinds share an opcode, the table finds a kind exactly at that kind's opcode. -/
theorem decodeKind_eq_some_iff {m : OpcodeMap} (hm : m.injective = true) {b : Byte} {k : Kind} :
    decodeKind m b = some k ↔ m.opcode k = b := by
  refine ⟨opcode_of_decodeKind, fun hb => ?_⟩
  cases hk : decodeKind m b with
  | none => exact absurd hb (decodeKind_eq_none.mp hk k)
  | some k' => rw [opcode_injective hm ((opcode_of_decodeKind hk).trans hb.symm)]

/-- Settles O4: decoding succeeds with the kind the table finds at byte 0, and the table is the inverse of an injective
opcode map. -/
theorem firstByteAloneSelectsTheInstruction : Obligations.FirstByteAloneSelectsTheInstruction := by
  refine ⟨fun m w k hm => ?_, fun m w hundef => ?_, fun m w w' hbyte => ?_⟩
  · rw [exists_decode_ok_kind_iff, decodeKind_eq_some_iff hm, byteAt_zero_eq_setWidth]
  · rw [← byteAt_zero_eq_setWidth] at hundef ⊢
    exact decode_of_decodeKind_none (decodeKind_eq_none.mpr hundef)
  · rw [exists_decode_ok_iff, exists_decode_ok_iff, byteAt_zero_eq_setWidth, byteAt_zero_eq_setWidth, hbyte]

/-! ### The operand fields lie in the used bytes (R72 to R77, R83) -/

/-- Words that agree on the bytes a kind's layout uses have the same operand fields, layout by layout. -/
theorem operands_congr {k : Kind} {w w' : Word} (h : ∀ n < k.usedBytes, byteAt w' n = byteAt w n) :
    operands k w' = operands k w := by
  cases k with
  | ldi | ld | st => simp only [operands, k16, h 1 (by decide), h 2 (by decide), h 3 (by decide)]
  | add | sub | mul | and | or => simp only [operands, h 1 (by decide), h 2 (by decide), h 3 (by decide)]
  | not | prn => simp only [operands, h 1 (by decide)]
  | cmp => simp only [operands, h 1 (by decide), h 2 (by decide)]
  | je | jne => simp only [operands, t16, h 1 (by decide), h 2 (by decide)]
  | hlt | nop => rfl

/-- Every layout uses byte 0. -/
theorem Kind.usedBytes_pos (k : Kind) : 0 < k.usedBytes := by cases k <;> decide

/-! ### The default opcodes (R80) -/

theorem toNat_defaultOpcodes_all :
    (Kind.all.map fun k => (defaultOpcodes.opcode k).toNat) = List.range' 1 15 := by decide

/-- The default opcodes are the bytes 0x01 to 0x0F. -/
theorem exists_defaultOpcodes_eq_iff {b : Byte} :
    (∃ k, defaultOpcodes.opcode k = b) ↔ 1 ≤ b.toNat ∧ b.toNat < 16 := by
  calc (∃ k, defaultOpcodes.opcode k = b)
      ↔ b.toNat ∈ Kind.all.map fun k => (defaultOpcodes.opcode k).toNat := by
        simp [Kind.mem_all, BitVec.toNat_inj]
    _ ↔ 1 ≤ b.toNat ∧ b.toNat < 16 := by rw [toNat_defaultOpcodes_all, List.mem_range'_1]

end Sys2Proof

namespace Sys2Proof.Machine

/-! ### The undefined opcode (30_encoding.md R82, 60_exceptions.md R175) -/

/-- A Running core whose fetched word has no kind's opcode faults from the state that holds the word in `ir`. -/
theorem step_undefinedOpcode {s : State} (hrun : s.run = .running) (hpc : s.pc.toNat < s.cfg.memWords)
    (hkind : decodeKind s.cfg.opc (byteAt (fetchedWord s) 0) = none) :
    step s = .next ((s.setIr (fetchedWord s)).fail .undefinedOpcode) := by
  obtain ⟨hended, -⟩ | ⟨-, hout, -⟩ | ⟨-, -, -, hstep⟩ | ⟨-, -, i, hok, -⟩ := step_cases s
  · exact absurd hrun hended
  · exact absurd hpc (Nat.not_lt.mpr hout)
  · exact hstep
  · exact absurd ((decodeKind_of_decode_ok hok).symm.trans hkind) (by simp)

/-- Settles O25: the table finds no kind, so the step is the fault raised after the fetch; the default opcodes are
0x01 to 0x0F. -/
theorem undefinedOpcodeFaultsWithoutMutation : Obligations.UndefinedOpcodeFaultsWithoutMutation := by
  refine ⟨fun s hrun hpc hundef => ?_, fun b => ?_⟩
  · rw [← byteAt_zero_eq_setWidth] at hundef
    exact ⟨_, step_undefinedOpcode hrun hpc (decodeKind_eq_none.mpr hundef), faultEntry_fail _ _⟩
  · have hdefined := exists_defaultOpcodes_eq_iff (b := b)
    rw [← not_exists, hdefined]
    omega

/-! ### An instruction reads no more of `ir` than byte 0 (R83, R174)

A fault records byte 0 of `ir`; nothing else an instruction does reads `ir`. So replacing `ir` by a word with the same
byte 0 commutes with every instruction. -/

section
variable {s t : State} {w : Word}

theorem advance_setIr (h : advance s = .next t) : advance (s.setIr w) = .next (t.setIr w) := by
  cases h; rfl

theorem jump_setIr {target : Half} (h : jump target s = .next t) : jump target (s.setIr w) = .next (t.setIr w) := by
  cases h; rfl

theorem stop_setIr (h : stop s = .next t) : stop (s.setIr w) = .next (t.setIr w) := by
  cases h; rfl

theorem raise_setIr (hbyte : byteAt w 0 = byteAt s.ir 0) {c : FaultCause} (h : raise c s = .next t) :
    raise c (s.setIr w) = .next (t.setIr w) := by
  cases h
  simp [State.fail, State.setIr, hbyte]

theorem withRegister_setIr (hbyte : byteAt w 0 = byteAt s.ir 0) {pos : Fin 4} {b : Byte} {k k' : RegIdx → Result}
    (h : withRegister pos b s k = .next t) (hk : ∀ r, k r = .next t → k' r = .next (t.setIr w)) :
    withRegister pos b (s.setIr w) k' = .next (t.setIr w) := by
  unfold withRegister at h ⊢
  split_ifs at h ⊢
  · exact hk _ h
  · exact raise_setIr hbyte h

@[simp] theorem State.setIr_inRange (a : Half) : (s.setIr w).inRange a = s.inRange a := rfl

theorem withAddress_setIr (hbyte : byteAt w 0 = byteAt s.ir 0) {kind : AccessKind} {a : Half} {k k' : Nat → Result}
    (h : withAddress kind a s k = .next t) (hk : ∀ n, k n = .next t → k' n = .next (t.setIr w)) :
    withAddress kind a (s.setIr w) k' = .next (t.setIr w) := by
  unfold withAddress at h ⊢
  rw [State.setIr_inRange]
  split_ifs at h ⊢
  · exact hk _ h
  · exact raise_setIr hbyte h

theorem threeRegister_setIr (hbyte : byteAt w 0 = byteAt s.ir 0) {f : Word → Word → Word} {rd ra rb : Byte}
    (h : threeRegister f rd ra rb s = .next t) : threeRegister f rd ra rb (s.setIr w) = .next (t.setIr w) :=
  withRegister_setIr hbyte h fun _ h => withRegister_setIr hbyte h fun _ h => withRegister_setIr hbyte h fun _ =>
    advance_setIr

@[simp] theorem State.setIr_zFlag : (s.setIr w).zFlag = s.zFlag := rfl

/-- Executing with another word in `ir` that has the same byte 0 leaves the same state but for `ir` itself. -/
theorem exec_setIr (hbyte : byteAt w 0 = byteAt s.ir 0) {i : Instr} (h : exec i s = .next t) :
    exec i (s.setIr w) = .next (t.setIr w) := by
  cases i with
  | ldi | not | prn =>
    simp only [exec, execLdi, execNot, execPrn] at h ⊢
    exact withRegister_setIr hbyte h fun _ => advance_setIr
  | ld | st =>
    simp only [exec, execLd, execSt] at h ⊢
    exact withRegister_setIr hbyte h fun _ h => withAddress_setIr hbyte h fun _ => advance_setIr
  | add | sub | mul | and | or => exact threeRegister_setIr hbyte h
  | cmp =>
    simp only [exec, execCmp] at h ⊢
    exact withRegister_setIr hbyte h fun _ h => withRegister_setIr hbyte h fun _ => advance_setIr
  | je =>
    rw [exec, execJe] at h ⊢
    rw [State.setIr_zFlag]
    split_ifs at h ⊢
    · exact jump_setIr h
    · exact advance_setIr h
  | jne =>
    rw [exec, execJne] at h ⊢
    rw [State.setIr_zFlag]
    split_ifs at h ⊢
    · exact advance_setIr h
    · exact jump_setIr h
  | hlt => exact stop_setIr h
  | nop => exact advance_setIr h

end

/-- Settles O3: the operand fields lie in the used bytes, and of `ir` an instruction reads byte 0 alone, which every
layout uses. -/
theorem unusedBytesNeverMatter : Obligations.UnusedBytesNeverMatter := by
  intro m w w' k hk hagree
  have hbyte : byteAt w' 0 = byteAt w 0 := hagree 0 k.usedBytes_pos
  have hk' : decodeKind m (byteAt w' 0) = some k := by rw [hbyte, hk]
  refine ⟨operands k w, decode_of_decodeKind_some hk, ?_, fun s t h => exec_setIr (s := s.setIr w) hbyte h⟩
  rw [decode_of_decodeKind_some hk', operands_congr hagree]

end Sys2Proof.Machine
end

section
namespace Sys2Proof.Machine

/-! ### The fetch phase (40_cycle.md R101) -/

/-- The state the fetch phase leaves: `ir` holds the fetched word, or is unchanged where the pc is out of range. -/
def State.afterFetch (s : State) : State :=
  s.setIr (if s.pc.toNat < s.cfg.memWords then fetchedWord s else s.ir)

theorem afterFetch_inRange {s : State} (h : s.pc.toNat < s.cfg.memWords) :
    s.afterFetch = s.setIr (fetchedWord s) := by
  rw [State.afterFetch, if_pos h]

theorem fetch_eq_afterFetch {s : State} (h : s.pc.toNat < s.cfg.memWords) : fetch s = some s.afterFetch := by
  rw [fetch_inRange h, afterFetch_inRange h, fetchedWord]

theorem afterFetch_outOfRange {s : State} (h : s.cfg.memWords ≤ s.pc.toNat) : s.afterFetch = s := by
  rw [State.afterFetch, if_neg (Nat.not_lt.mpr h)]
  rfl

@[simp] theorem afterFetch_run (s : State) : s.afterFetch.run = s.run := rfl

/-- The next pc does not depend on `ir`. -/
@[simp] theorem nextPc_afterFetch (i : Instr) (s : State) : nextPc i s.afterFetch = nextPc i s := rfl

/-! ### The first fault of a cycle, phase by phase (60_exceptions.md R179) -/

theorem faultOfCycle_outOfRange {s : State} (h : s.cfg.memWords ≤ s.pc.toNat) :
    faultOfCycle s = some (.addressOutOfRange .fetch s.pc) := by
  rw [faultOfCycle, if_pos h]

theorem faultOfCycle_of_decode_error {s : State} {e : DecodeError} (h : s.pc.toNat < s.cfg.memWords)
    (hdec : decode s.cfg.opc (fetchedWord s) = .error e) : faultOfCycle s = some .undefinedOpcode := by
  rw [faultOfCycle, if_neg (Nat.not_le.mpr h), hdec]

theorem faultOfCycle_of_decode_ok {s : State} {i : Instr} (h : s.pc.toNat < s.cfg.memWords)
    (hdec : decode s.cfg.opc (fetchedWord s) = .ok i) : faultOfCycle s = operandFault s.cfg.memWords i := by
  rw [faultOfCycle, if_neg (Nat.not_le.mpr h), hdec]

/-! ### A cycle meets its first fault or has the effect of its instruction (40_cycle.md R104 to R108) -/

/-- The two ways of a step of a Running core: the first fault of the fixed order, raised after the fetch phase, or the
effect of the decoded instruction on the state after the fetch phase. -/
theorem running_step_cases {s : State} (hrun : s.run = .running) :
    (∃ c, faultOfCycle s = some c ∧ step s = .next (s.afterFetch.fail c)) ∨
    (faultOfCycle s = none ∧ ∃ i t, decode s.cfg.opc (fetchedWord s) = .ok i ∧ step s = .next t ∧
      Effect s.afterFetch i t) := by
  obtain ⟨hended, -⟩ | ⟨-, hout, hstep⟩ | ⟨-, hin, ⟨e, hdec⟩, hstep⟩ | ⟨-, hin, i, hdec, hstep⟩ := step_cases s
  · exact absurd hrun hended
  · exact .inl ⟨_, faultOfCycle_outOfRange hout, by rw [hstep, afterFetch_outOfRange hout]⟩
  · exact .inl ⟨_, faultOfCycle_of_decode_error hin hdec, by rw [hstep, afterFetch_inRange hin, fetchedWord]⟩
  · have hstep' : step s = exec i s.afterFetch := by rw [hstep, afterFetch_inRange hin, fetchedWord]
    rw [faultOfCycle_of_decode_ok hin hdec, hstep']
    obtain ⟨c, hfault, hexec⟩ | ⟨hfault, t, hexec, heffect⟩ := exec_cases i s.afterFetch
    · exact .inl ⟨c, hfault, hexec⟩
    · exact .inr ⟨hfault, i, t, hdec, hexec, heffect⟩

/-! ### The run state and the pc after an instruction (R106, R108) -/

/-- Instruction `i` is a jump to `target` that is taken in the state `s`. -/
def TakesJump (s : State) (i : Instr) (target : Half) : Prop :=
  (i = .je target ∧ s.psw.getLsbD 0 = true) ∨ (i = .jne target ∧ s.psw.getLsbD 0 = false)

theorem nextPc_of_takesJump {s : State} {i : Instr} {target : Half} (h : TakesJump s i target) :
    nextPc i s = target := by
  obtain ⟨rfl, hz⟩ | ⟨rfl, hz⟩ := h <;> exact if_pos hz

theorem nextPc_of_not_takesJump {s : State} {i : Instr} (h : ∀ target, ¬ TakesJump s i target) :
    nextPc i s = s.pc + 1#16 := by
  cases i with
  | je target => exact if_neg fun hz => h target (.inl ⟨rfl, hz⟩)
  | jne target => exact if_neg fun hz => h target (.inr ⟨rfl, hz⟩)
  | _ => rfl

namespace Effect

variable {s t : State} {i : Instr}

theorem eq_halt (h : Effect s .hlt t) : t = s.halt := by
  cases h with
  | register _ d v hi => simp [Instr.kind] at hi
  | halt => rfl

theorem run_of_ne_hlt (h : Effect s i t) (hi : i ≠ .hlt) : t.run = s.run := by
  cases h with
  | halt => exact absurd rfl hi
  | _ => rfl

/-- The effect of an instruction is never the state Faulted: only a fault enters it. -/
theorem run_ne_faulted (h : Effect s i t) (hrun : s.run = .running) : t.run ≠ .faulted := by
  by_cases hi : i = .hlt
  · subst hi
    rw [h.eq_halt, State.halt_run]
    simp
  · rw [h.run_of_ne_hlt hi, hrun]
    simp

theorem pc_of_ne_hlt (h : Effect s i t) (hi : i ≠ .hlt) : t.pc = nextPc i s := by
  cases h with
  | register _ d v hkind =>
    refine (nextPc_of_not_takesJump fun target htaken => ?_).symm
    obtain ⟨rfl, -⟩ | ⟨rfl, -⟩ := htaken <;> simp [Instr.kind] at hkind
  | je target => rfl
  | jne target =>
    cases hz : s.psw.getLsbD 0 <;> simp only [State.setPc_pc, State.zFlag, nextPc, hz, reduceCtorEq, reduceIte]
  | halt => exact absurd rfl hi
  | word | flags | output | none => rfl

end Effect

/-- Settles O29: a Running core enters Faulted only by the first fault of its cycle, raised after the fetch phase, which
wrote `ir` alone. -/
theorem faultsChangeNothingElse : Obligations.FaultsChangeNothingElse := by
  intro s t hrun hstep hfaulted
  obtain ⟨c, -, hfail⟩ | ⟨-, i, t', -, hstep', heffect⟩ := running_step_cases hrun
  · obtain rfl : s.afterFetch.fail c = t := by simpa [hfail] using hstep
    have hentry := faultEntry_fail c s.afterFetch
    exact ⟨hentry.regs, hentry.bytes, hentry.psw, hentry.out, hentry.cfg, hentry.pc,
      ⟨_, hentry.fault, rfl, rfl⟩, hentry.ir⟩
  · obtain rfl : t' = t := by simpa [hstep'] using hstep
    exact absurd hfaulted (heffect.run_ne_faulted hrun)

/-- Settles O32: without a fault the step is the effect of the decoded instruction, whose pc is that of the rule. -/
theorem nextPcAfterEveryStep : Obligations.NextPcAfterEveryStep := by
  intro s t i hrun hnofault hdec hi hstep
  have hpc : t.pc = nextPc i s := by
    obtain ⟨c, hfault, -⟩ | ⟨-, i', t', hdec', hstep', heffect⟩ := running_step_cases hrun
    · simp [hnofault] at hfault
    · obtain rfl : i' = i := by simpa [hdec'] using hdec
      obtain rfl : t' = t := by simpa [hstep'] using hstep
      simpa using heffect.pc_of_ne_hlt hi
  refine ⟨fun target htaken => hpc.trans (nextPc_of_takesJump htaken), fun hnot => ?_⟩
  rw [hpc, nextPc_of_not_takesJump hnot, BitVec.toNat_add]
  rfl

end Sys2Proof.Machine
end

section
namespace Sys2Proof

/-! ### The fields of a word as bit slices (30_encoding.md R72, R78) -/

/-- The 16-bit field of layout RI is the high half of the word. -/
theorem k16_eq_extractLsb' (w : Word) : k16 w = w.extractLsb' 16 16 := by
  apply BitVec.eq_of_toNat_eq
  rw [k16, toNat_halfOfBytes, toNat_byteAt, toNat_byteAt, BitVec.extractLsb'_toNat, Nat.shiftRight_eq_div_pow]
  omega

/-! ### Words under the default opcode map (R79, R80) -/

theorem defaultOpcodes_injective : defaultOpcodes.injective = true := by decide

/-- A word whose low byte is the default opcode of a kind decodes to that kind, its fields unpacked by the layout. -/
theorem decode_defaultOpcodes {w : Word} (k : Kind) (h : w.toNat % 256 = (defaultOpcodes.opcode k).toNat) :
    decode defaultOpcodes w = .ok (operands k w) := by
  have hbyte : defaultOpcodes.opcode k = byteAt w 0 := by
    apply BitVec.eq_of_toNat_eq
    rw [← h, byteAt_zero_eq_setWidth, BitVec.toNat_setWidth]
  exact decode_of_decodeKind_some ((decodeKind_eq_some_iff defaultOpcodes_injective).mpr hbyte)

/-- The fields of layout RI: the register byte from bit 8, the 16-bit field from bit 16. -/
theorem operands_ldi (w : Word) : operands .ldi w = .ldi (w.extractLsb' 8 8) (w.extractLsb' 16 16) :=
  congrArg (Instr.ldi _) (k16_eq_extractLsb' w)

theorem operands_ld (w : Word) : operands .ld w = .ld (w.extractLsb' 8 8) (w.extractLsb' 16 16) :=
  congrArg (Instr.ld _) (k16_eq_extractLsb' w)

theorem operands_st (w : Word) : operands .st w = .st (w.extractLsb' 8 8) (w.extractLsb' 16 16) :=
  congrArg (Instr.st _) (k16_eq_extractLsb' w)

/-- The value of a word of layout RI. -/
theorem toNat_encodeRI (op r : Byte) (k : Half) :
    (encodeRI op r k).toNat = op.toNat + 2 ^ 8 * r.toNat + 2 ^ 16 * k.toNat := by
  rw [encodeRI, toNat_wordOfBytes, toNat_lowByte, toNat_highByte]
  omega

end Sys2Proof

namespace Sys2Proof.Machine

/-! ### The faults of the operand check (40_cycle.md R104) -/

/-- An instruction whose operand check finds a fault takes that fault. -/
theorem exec_of_operandFault {i : Instr} {s : State} {c : FaultCause}
    (h : operandFault s.cfg.memWords i = some c) : exec i s = .next (s.fail c) := by
  obtain ⟨c', hfault, hexec⟩ | ⟨hnone, -⟩ := exec_cases i s
  · rwa [← Option.some.inj (hfault.symm.trans h)]
  · exact absurd (hnone.symm.trans h) (by simp)

/-- Every instruction faults on its first bad register byte (60_exceptions.md R176). -/
theorem faultsOnBadRegister (i : Instr) : FaultsOnBadRegister i := by
  intro s p b hbad
  have hfault : operandFault s.cfg.memWords i = some (.registerIndexOutOfRange b p) := by
    simp only [operandFault, hbad]
  exact ⟨_, exec_of_operandFault hfault, faultEntry_fail _ s⟩

/-- An instruction with legal registers and a data address at or beyond the capacity takes the address fault
(20_memory.md R52). -/
theorem exec_address_outOfRange {i : Instr} {s : State} {kind : AccessKind} {a : Half}
    (hwf : i.wellFormed = true) (hdata : dataAccess i = some (kind, a)) (h : s.cfg.memWords ≤ a.toNat) :
    exec i s = .next (s.fail (.addressOutOfRange kind a)) := by
  refine exec_of_operandFault ?_
  simp only [operandFault, firstBadRegister_eq_none.mpr hwf, hdata, if_pos h]

/-- An instruction whose one register byte encodes a register passes the register check (30_encoding.md R84). -/
theorem wellFormed_of_one_register {i : Instr} {r : RegIdx} (h : i.registerBytes = [(1, regByte r)]) :
    i.wellFormed = true := by
  have hr := r.isLt
  simp only [Instr.wellFormed, h, List.all_cons, List.all_nil, toNat_regByte, Bool.and_true, decide_eq_true_eq]
  omega

/-! ### The frames of a register write, of a store and of the advance -/

/-- The advance modulo 2^16 (R109). -/
theorem pcAdvanced_of_pc_eq {s t : State} (h : t.pc = s.pc + 1#16) : PcAdvanced s t := by
  rw [PcAdvanced, h, BitVec.toNat_add]
  rfl

theorem onlyRegister_setReg_setPc (s : State) (d : RegIdx) (v : Word) (p : Half) :
    OnlyRegister d s ((s.setReg d v).setPc p) := by
  refine ⟨fun r hr => ?_, fun _ => rfl, rfl, rfl, rfl, rfl, rfl, rfl⟩
  rw [State.setPc_reg, State.reg_setReg, if_neg hr]

theorem onlyWord_storeWord_setPc (s : State) (a : Nat) (w : Word) (p : Half) :
    OnlyWord a s ((s.storeWord a w).setPc p) :=
  ⟨fun _ => rfl, fun _ hk => Memory.readByte_writeWord_outside s.mem w hk, rfl, rfl, rfl, rfl, rfl, rfl⟩

/-- Zero extension keeps the value (30_encoding.md R78). -/
theorem toNat_zeroExtend (imm : Half) : (zeroExtend imm).toNat = imm.toNat :=
  BitVec.toNat_setWidth_of_le (by decide)

/-! ### The data movement instructions (41_data_movement.md) -/

/-- Settles O6: the one register written is the destination, with the zero-extended immediate; a bad byte stops at the
register check. -/
theorem ldiLoadsZeroExtendedImmediate : Obligations.LdiLoadsZeroExtendedImmediate := by
  refine ⟨fun w hw => ?_, fun rd imm => toNat_encodeRI _ rd imm, fun s d imm => ?_,
    fun rd imm => faultsOnBadRegister _⟩
  · rw [decode_defaultOpcodes .ldi hw, operands_ldi]
  · refine ⟨_, execLdi_regByte d imm s, ?_, pcAdvanced_of_pc_eq rfl, onlyRegister_setReg_setPc s d _ _⟩
    rw [State.setPc_reg, State.reg_setReg_same, toNat_zeroExtend]

/-- Settles O7: the write of the word read at the address; at or beyond the capacity the operand check faults. -/
theorem ldLoadsTheWordAtTheAddress : Obligations.LdLoadsTheWordAtTheAddress := by
  refine ⟨fun w hw => ?_, fun rd addr => toNat_encodeRI _ rd addr, fun s d addr hin => ?_, fun s d addr hout => ?_,
    fun rd addr => faultsOnBadRegister _⟩
  · rw [decode_defaultOpcodes .ld hw, operands_ld]
  · refine ⟨_, execLd_regByte d hin, ?_, pcAdvanced_of_pc_eq rfl, onlyRegister_setReg_setPc s d _ _⟩
    rw [State.setPc_reg, State.reg_setReg_same, Memory.readWord, toNat_wordOfBytes]
  · exact ⟨_, exec_address_outOfRange (wellFormed_of_one_register rfl) rfl hout, faultEntry_fail _ s⟩

/-- Settles O8: the store of the register's bytes, read back through the canonical memory; at or beyond the capacity the
operand check faults. -/
theorem stStoresTheRegisterAtTheAddress : Obligations.StStoresTheRegisterAtTheAddress := by
  refine ⟨fun w hw => ?_, fun rs addr => toNat_encodeRI _ rs addr, fun s r addr hin => ?_, fun s r addr hout => ?_,
    fun rs addr => faultsOnBadRegister _⟩
  · rw [decode_defaultOpcodes .st hw, operands_st]
  · refine ⟨_, execSt_regByte r hin, fun hmem n hn => ?_, pcAdvanced_of_pc_eq rfl,
      onlyWord_storeWord_setPc s addr.toNat _ _⟩
    rw [State.setPc_mem, State.storeWord_mem, Memory.readByte_writeWord_inside hmem _ _ hn, toNat_byteAt]
  · exact ⟨_, exec_address_outOfRange (wellFormed_of_one_register rfl) rfl hout, faultEntry_fail _ s⟩

end Sys2Proof.Machine
end

section
namespace Sys2Proof

/-! ### The words of layouts RRR and R (30_encoding.md R73, R74, R79) -/

/-- The value of a word of layout RRR. -/
theorem toNat_encodeRRR (op rd ra rb : Byte) :
    (encodeRRR op rd ra rb).toNat = op.toNat + 2 ^ 8 * rd.toNat + 2 ^ 16 * ra.toNat + 2 ^ 24 * rb.toNat :=
  toNat_wordOfBytes op rd ra rb

/-- The value of a word of layout R: the unused bytes 2 and 3 are 0. -/
theorem toNat_encodeR (op r : Byte) : (encodeR op r).toNat = op.toNat + 2 ^ 8 * r.toNat :=
  toNat_wordOfBytes op r 0#8 0#8

end Sys2Proof

namespace Sys2Proof.Machine

/-! ### The effect common to the three-register instructions (42_alu.md R130) -/

/-- On legal registers the destination receives `f` of the old sources, the pc advances and nothing else changes. -/
theorem threeRegister_effect (f : Word → Word → Word) (s : State) (d a b : RegIdx) :
    ∃ t, threeRegister f (regByte d) (regByte a) (regByte b) s = .next t ∧ t.reg d = f (s.reg a) (s.reg b) ∧
      PcAdvanced s t ∧ OnlyRegister d s t := by
  refine ⟨_, threeRegister_regByte f d a b s, ?_, pcAdvanced_of_pc_eq rfl, onlyRegister_setReg_setPc s d _ _⟩
  rw [State.setPc_reg, State.reg_setReg_same]

/-- Subtraction modulo 2^32 by its two cases, without and with a borrow (R132). -/
theorem toNat_sub_eq_ite (v w : Word) :
    (v - w).toNat = if w.toNat ≤ v.toNat then v.toNat - w.toNat else 2 ^ 32 + v.toNat - w.toNat := by
  have hv := v.isLt
  have hw := w.isLt
  rw [BitVec.toNat_sub]
  split <;> omega

/-! ### The arithmetic and bitwise instructions (R131 to R136) -/

/-- Settles O9: the three-register effect with addition, which wraps at 2^32. -/
theorem addWritesTheSumModulo2Pow32 : Obligations.AddWritesTheSumModulo2Pow32 := by
  refine ⟨fun w hw => decode_defaultOpcodes .add hw, toNat_encodeRRR _, fun s d a b => ?_,
    fun rd ra rb => faultsOnBadRegister _⟩
  obtain ⟨t, hexec, hreg, hpc, hframe⟩ := threeRegister_effect (fun a b => a + b) s d a b
  exact ⟨t, hexec, by rw [hreg, BitVec.toNat_add], hpc, hframe⟩

/-- Settles O10: the three-register effect with subtraction, whose value splits on the borrow. -/
theorem subWritesTheDifferenceModulo2Pow32 : Obligations.SubWritesTheDifferenceModulo2Pow32 := by
  refine ⟨fun w hw => decode_defaultOpcodes .sub hw, toNat_encodeRRR _, fun s d a b => ?_,
    fun rd ra rb => faultsOnBadRegister _⟩
  obtain ⟨t, hexec, hreg, hpc, hframe⟩ := threeRegister_effect (fun a b => a - b) s d a b
  exact ⟨t, hexec, by rw [hreg, toNat_sub_eq_ite], hpc, hframe⟩

/-- Settles O12: the three-register effect with the bitwise and. -/
theorem andWritesTheBitwiseAnd : Obligations.AndWritesTheBitwiseAnd := by
  refine ⟨fun w hw => decode_defaultOpcodes .and hw, toNat_encodeRRR _, fun s d a b => ?_,
    fun rd ra rb => faultsOnBadRegister _⟩
  obtain ⟨t, hexec, hreg, hpc, hframe⟩ := threeRegister_effect (fun a b => a &&& b) s d a b
  exact ⟨t, hexec, fun n _ => by rw [hreg, BitVec.getLsbD_and], hpc, hframe⟩

/-- Settles O13: the three-register effect with the bitwise inclusive or. -/
theorem orWritesTheBitwiseOr : Obligations.OrWritesTheBitwiseOr := by
  refine ⟨fun w hw => decode_defaultOpcodes .or hw, toNat_encodeRRR _, fun s d a b => ?_,
    fun rd ra rb => faultsOnBadRegister _⟩
  obtain ⟨t, hexec, hreg, hpc, hframe⟩ := threeRegister_effect (fun a b => a ||| b) s d a b
  exact ⟨t, hexec, fun n _ => by rw [hreg, BitVec.getLsbD_or], hpc, hframe⟩

/-- Settles O14: the one register written is the operand itself; complementing 32 bits subtracts from 2^32 - 1. -/
theorem notComplementsInPlace : Obligations.NotComplementsInPlace := by
  refine ⟨fun w hw => decode_defaultOpcodes .not hw, toNat_encodeR _, fun s d => ?_,
    fun rd => faultsOnBadRegister _⟩
  refine ⟨_, execNot_regByte d s, ?_, pcAdvanced_of_pc_eq rfl, onlyRegister_setReg_setPc s d _ _⟩
  rw [State.setPc_reg, State.reg_setReg_same, BitVec.toNat_not]

end Sys2Proof.Machine
end

section
namespace Sys2Proof

/-! ### The words of layouts RR and J (30_encoding.md R75, R76, R79) -/

/-- The target field of layout J is the middle half of the word. -/
theorem t16_eq_extractLsb' (w : Word) : t16 w = w.extractLsb' 8 16 := by
  apply BitVec.eq_of_toNat_eq
  rw [t16, toNat_halfOfBytes, toNat_byteAt, toNat_byteAt, BitVec.extractLsb'_toNat, Nat.shiftRight_eq_div_pow]
  omega

/-- The field of layout J: the target from bit 8. -/
theorem operands_je (w : Word) : operands .je w = .je (w.extractLsb' 8 16) :=
  congrArg Instr.je (t16_eq_extractLsb' w)

theorem operands_jne (w : Word) : operands .jne w = .jne (w.extractLsb' 8 16) :=
  congrArg Instr.jne (t16_eq_extractLsb' w)

/-- The value of a word of layout RR: the unused byte 3 is 0. -/
theorem toNat_encodeRR (op ra rb : Byte) :
    (encodeRR op ra rb).toNat = op.toNat + 2 ^ 8 * ra.toNat + 2 ^ 16 * rb.toNat :=
  toNat_wordOfBytes op ra rb 0#8

/-- The value of a word of layout J: the unused byte 3 is 0. -/
theorem toNat_encodeJ (op : Byte) (t : Half) : (encodeJ op t).toNat = op.toNat + 2 ^ 8 * t.toNat := by
  rw [encodeJ, toNat_wordOfBytes, toNat_lowByte, toNat_highByte, BitVec.toNat_ofNat]
  omega

end Sys2Proof

namespace Sys2Proof.Machine

/-! ### The status word of a comparison (43_compare_and_jumps.md R150, R151) -/

theorem compareZ_eq_decide (a b : Word) : compareZ a b = decide (a.toNat = b.toNat) := by
  rw [compareZ, beq_eq_decide, decide_eq_decide, BitVec.toNat_inj]

theorem compareN_eq_decide (a b : Word) : compareN a b = decide (a.toNat < b.toNat) := rfl

/-- Bit 0, the zero flag, says that the operands are equal. -/
theorem compareFlags_zero_iff (a b : Word) : (compareFlags a b).getLsbD 0 = true ↔ a.toNat = b.toNat := by
  rw [compareFlags, packFlags_getLsbD_zero, compareZ_eq_decide, decide_eq_true_iff]

/-- Bit 1, the negative flag, says that the first operand is the lesser as an unsigned number. -/
theorem compareFlags_negative_iff (a b : Word) : (compareFlags a b).getLsbD 1 = true ↔ a.toNat < b.toNat := by
  rw [compareFlags, packFlags_getLsbD_one, compareN_eq_decide, decide_eq_true_iff]

/-- The three outcomes of a comparison, by the unsigned order of the operands. -/
theorem compareFlags_eq_ite (a b : Word) :
    compareFlags a b = if a.toNat = b.toNat then 0b01#2 else if a.toNat < b.toNat then 0b10#2 else 0b00#2 := by
  rw [compareFlags, compareZ_eq_decide, compareN_eq_decide]
  obtain hlt | heq | hgt := Nat.lt_trichotomy a.toNat b.toNat
  · simp only [hlt, hlt.ne, decide_true, decide_false, if_true, if_false]
    rfl
  · simp only [heq, lt_irrefl, decide_true, decide_false, if_true]
    rfl
  · simp only [hgt.ne', hgt.not_gt, decide_false, if_false]
    rfl

/-- No comparison leaves both flags set. -/
theorem compareFlags_ne_both (a b : Word) : compareFlags a b ≠ 0b11#2 := by
  rw [compareFlags_eq_ite]
  split_ifs <;> decide

/-! ### The status word after an instruction and after a step (R150) -/

/-- The status word after an instruction is the old one or, for CMP alone, the flags of its operands. -/
theorem Effect.psw_cases {s t : State} {i : Instr} (h : Effect s i t) :
    t.psw = s.psw ∨
      ∃ a b, i = .cmp (regByte a) (regByte b) ∧ t.psw = compareFlags (s.reg a) (s.reg b) := by
  cases h with
  | flags a b => exact .inr ⟨a, b, rfl, rfl⟩
  | register | word | output | je | jne | halt | none => exact .inl rfl

/-- The status word after a step is the old one or, where the fetched word is a CMP, the flags of its operands. -/
theorem step_psw_cases {s t : State} (hstep : step s = .next t) :
    t.psw = s.psw ∨
      ∃ a b, decode s.cfg.opc (fetchedWord s) = .ok (.cmp (regByte a) (regByte b)) ∧
        t.psw = compareFlags (s.reg a) (s.reg b) := by
  by_cases hrun : s.run = .running
  · obtain ⟨c, -, hfail⟩ | ⟨-, i, t', hdec, hstep', heffect⟩ := running_step_cases hrun
    · obtain rfl : s.afterFetch.fail c = t := by simpa [hfail] using hstep
      exact .inl rfl
    · obtain rfl : t' = t := by simpa [hstep'] using hstep
      obtain hsame | ⟨a, b, rfl, hflags⟩ := heffect.psw_cases
      · exact .inl hsame
      · exact .inr ⟨a, b, hdec, hflags⟩
  · obtain ⟨-, hstay⟩ | ⟨hrunning, -⟩ | ⟨hrunning, -⟩ | ⟨hrunning, -⟩ := step_cases s
    · obtain rfl : s = t := by simpa [hstay] using hstep
      exact .inl rfl
    all_goals exact absurd hrunning hrun

/-- Settles O38: the outcome splits on the order of the operands; a step leaves the old status word or the flags of a
comparison, which never sets both. -/
theorem onlyCompareWritesTheFlags : Obligations.OnlyCompareWritesTheFlags := by
  refine ⟨fun s a b => ⟨_, execCmp_regByte a b s, fun heq => ?_, fun hlt => ?_, fun hgt => ?_⟩,
    fun s t hstep hchanged => ?_, fun s t hboth hstep => ?_, rfl⟩
  · rw [State.setPc_psw, State.setPsw_psw, compareFlags_eq_ite, if_pos heq]
  · rw [State.setPc_psw, State.setPsw_psw, compareFlags_eq_ite, if_neg hlt.ne, if_pos hlt]
  · rw [State.setPc_psw, State.setPsw_psw, compareFlags_eq_ite, if_neg hgt.ne', if_neg hgt.not_gt]
  · obtain hsame | ⟨a, b, hdec, -⟩ := step_psw_cases hstep
    · exact absurd hsame hchanged
    · exact ⟨_, _, hdec⟩
  · obtain hsame | ⟨a, b, -, hflags⟩ := step_psw_cases hstep
    · rwa [hsame]
    · rw [hflags]
      exact compareFlags_ne_both _ _

/-! ### The compare instruction (R151) -/

theorem onlyFlags_setPsw_setPc (s : State) (p : BitVec 2) (q : Half) : OnlyFlags s ((s.setPsw p).setPc q) :=
  ⟨fun _ => rfl, fun _ => rfl, rfl, rfl, rfl, rfl, rfl⟩

/-- Settles O15: the two bits of the status word are the two comparisons of the unsigned values. -/
theorem cmpWritesBothFlagsUnsigned : Obligations.CmpWritesBothFlagsUnsigned := by
  refine ⟨fun w hw => decode_defaultOpcodes .cmp hw, toNat_encodeRR _, fun s a b => ?_,
    fun ra rb => faultsOnBadRegister _⟩
  exact ⟨_, execCmp_regByte a b s, compareFlags_zero_iff _ _, compareFlags_negative_iff _ _, pcAdvanced_of_pc_eq rfl,
    onlyFlags_setPsw_setPc s _ _⟩

/-! ### The conditional jumps (R152, R153) -/

/-- JE sets the pc by the rule of the next pc (40_cycle.md R108), whatever the target. -/
theorem exec_je (target : Half) (s : State) : exec (.je target) s = .next (s.setPc (nextPc (.je target) s)) := by
  rw [exec, execJe, State.zFlag, nextPc]
  split_ifs <;> rfl

/-- JNE does the same: its two branches stand in the other order, for the flag set and clear. -/
theorem exec_jne (target : Half) (s : State) : exec (.jne target) s = .next (s.setPc (nextPc (.jne target) s)) := by
  cases hz : s.psw.getLsbD 0 <;>
    simp only [exec, execJne, State.zFlag, nextPc, hz, advance_eq, jump_eq, reduceCtorEq, reduceIte]

theorem exec_of_takesJump {s : State} {i : Instr} {target : Half} (h : TakesJump s i target) :
    exec i s = .next (s.setPc target) := by
  rw [← nextPc_of_takesJump h]
  obtain ⟨rfl, -⟩ | ⟨rfl, -⟩ := h
  · exact exec_je target s
  · exact exec_jne target s

theorem onlyPc_setPc (s : State) (p : Half) : OnlyPc s (s.setPc p) :=
  ⟨fun _ => rfl, fun _ => rfl, rfl, rfl, rfl, rfl, rfl, rfl⟩

/-- After a jump taken to a target at or beyond the capacity the next step is the fetch fault at the target. -/
theorem step_after_takesJump_outOfRange {s t : State} {i : Instr} {target : Half} (hrun : s.run = .running)
    (htaken : TakesJump s i target) (hout : s.cfg.memWords ≤ target.toNat) (hexec : exec i s = .next t) :
    ∃ u, step t = .next u ∧ FaultEntry (.addressOutOfRange .fetch target) t u := by
  obtain rfl : s.setPc target = t := by simpa [exec_of_takesJump htaken] using hexec
  exact ⟨_, step_fetch_outOfRange hrun hout, faultEntry_fail _ _⟩

/-- Settles O16: the pc is that of the rule; a target out of range is met by the next fetch. -/
theorem jeJumpsOnZero : Obligations.JeJumpsOnZero := by
  refine ⟨fun w hw => ?_, toNat_encodeJ _, fun s target => ⟨_, exec_je target s, ?_, onlyPc_setPc s _⟩,
    fun s t target hrun hz hout => step_after_takesJump_outOfRange hrun (.inl ⟨rfl, hz⟩) hout⟩
  · rw [decode_defaultOpcodes .je hw, operands_je]
  · rw [State.setPc_pc, nextPc, apply_ite BitVec.toNat, BitVec.toNat_add]
    rfl

/-- Settles O17: as JE, with the zero flag clear. -/
theorem jneJumpsOnNonZero : Obligations.JneJumpsOnNonZero := by
  refine ⟨fun w hw => ?_, toNat_encodeJ _, fun s target => ⟨_, exec_jne target s, ?_, onlyPc_setPc s _⟩,
    fun s t target hrun hz hout => step_after_takesJump_outOfRange hrun (.inr ⟨rfl, hz⟩) hout⟩
  · rw [decode_defaultOpcodes .jne hw, operands_jne]
  · rw [State.setPc_pc, nextPc, apply_ite BitVec.toNat, BitVec.toNat_add]
    rfl

end Sys2Proof.Machine
end

section
namespace Sys2Proof

/-! ### The words of layout N (30_encoding.md R77, R79) -/

/-- The value of a word of layout N: the unused bytes 1 to 3 are 0. -/
theorem toNat_encodeN (op : Byte) : (encodeN op).toNat = op.toNat :=
  toNat_wordOfBytes op 0#8 0#8 0#8

end Sys2Proof

namespace Sys2Proof.Machine

/-! ### Halting (44_system.md R160) -/

/-- A core that is not Running steps to itself (60_exceptions.md R171). -/
theorem step_of_ne_running {s : State} (hrun : s.run ≠ .running) : step s = .next s := by
  obtain ⟨-, hstay⟩ | ⟨hrunning, -⟩ | ⟨hrunning, -⟩ | ⟨hrunning, -⟩ := step_cases s
  · exact hstay
  all_goals exact absurd hrunning hrun

theorem exec_hlt (s : State) : exec .hlt s = .next s.halt := rfl

theorem onlyRun_halt (s : State) : OnlyRun s s.halt :=
  ⟨fun _ => rfl, fun _ => rfl, rfl, rfl, rfl, rfl, rfl, rfl⟩

/-- Settles O18: HLT sets the run state alone, and a halted core steps to itself. -/
theorem hltHaltsAndKeepsThePc : Obligations.HltHaltsAndKeepsThePc := by
  refine ⟨fun w hw => decode_defaultOpcodes .hlt hw, toNat_encodeN _,
    fun s => ⟨s.halt, exec_hlt s, State.halt_run s, onlyRun_halt s, step_of_ne_running ?_⟩⟩
  rw [State.halt_run]
  decide

/-! ### Emitting a value (44_system.md R161) -/

theorem onlyOutput_emit_setPc (s : State) (v : Word) (p : Half) : OnlyOutput s ((s.emit v).setPc p) :=
  ⟨fun _ => rfl, fun _ => rfl, rfl, rfl, rfl, rfl, rfl⟩

/-- Settles O19: the value of the register is appended before the advance; a bad byte stops at the register check, whose
fault entry keeps the output. -/
theorem prnEmitsTheRegister : Obligations.PrnEmitsTheRegister := by
  refine ⟨fun w hw => decode_defaultOpcodes .prn hw, toNat_encodeR _, fun s r => ?_, fun rs => faultsOnBadRegister _⟩
  refine ⟨_, execPrn_regByte r s, ?_, pcAdvanced_of_pc_eq rfl, onlyOutput_emit_setPc s _ _⟩
  rw [State.setPc_out, State.emit_out]

end Sys2Proof.Machine
end

section
namespace Sys2Proof.Machine

/-! ### The first fault of a cycle decides its step (60_exceptions.md R176, R179)

A Running core whose cycle meets a fault ends with the first one raised after the fetch phase; one whose cycle meets none
ends with the effect of its instruction. -/

/-- A bad register byte is the first fault of the operand check (40_cycle.md R104). -/
theorem operandFault_of_firstBadRegister {i : Instr} {p : Fin 4} {b : Byte} (memWords : Nat)
    (h : i.firstBadRegister = some (p, b)) : operandFault memWords i = some (.registerIndexOutOfRange b p) := by
  simp only [operandFault, h]

theorem step_of_faultOfCycle_some {s : State} {c : FaultCause} (hrun : s.run = .running)
    (hfault : faultOfCycle s = some c) : step s = .next (s.afterFetch.fail c) := by
  obtain ⟨c', hfault', hstep⟩ | ⟨hnone, -⟩ := running_step_cases hrun
  · obtain rfl : c' = c := Option.some.inj (hfault'.symm.trans hfault)
    exact hstep
  · exact absurd (hnone.symm.trans hfault) (by simp)

theorem step_of_faultOfCycle_none {s : State} (hrun : s.run = .running) (hnone : faultOfCycle s = none) :
    ∃ i t, decode s.cfg.opc (fetchedWord s) = .ok i ∧ step s = .next t ∧ Effect s.afterFetch i t := by
  obtain ⟨c, hfault, -⟩ | ⟨-, heffect⟩ := running_step_cases hrun
  · exact absurd (hfault.symm.trans hnone) (by simp)
  · exact heffect

/-- Settles O27: the bad register byte is the first fault of the cycle, and the fetch phase wrote `ir` alone. -/
theorem badRegisterByteFaultsFirstPositionReported : Obligations.BadRegisterByteFaultsFirstPositionReported := by
  intro s i p b hrun hpc hdec hbad
  have hfault : faultOfCycle s = some (.registerIndexOutOfRange b p) := by
    rw [faultOfCycle_of_decode_ok hpc hdec, operandFault_of_firstBadRegister _ hbad]
  have hstep := step_of_faultOfCycle_some hrun hfault
  rw [afterFetch_inRange hpc] at hstep
  exact ⟨_, hstep, faultEntry_fail _ _⟩

/-- Settles O28: the fault raised is the first of the order, and the effect of an instruction never enters Faulted. -/
theorem faultsAreMetInTheFixedOrder : Obligations.FaultsAreMetInTheFixedOrder := by
  refine fun s hrun => ⟨fun c hfault => ?_, fun hnone => ?_⟩
  · exact ⟨_, _, step_of_faultOfCycle_some hrun hfault, State.fail_run _ c, State.fail_fault _ c, rfl⟩
  · obtain ⟨i, t, -, hstep, heffect⟩ := step_of_faultOfCycle_none hrun hnone
    exact ⟨t, hstep, heffect.run_ne_faulted hrun⟩

/-! ### The run state (60_exceptions.md R170, R171) -/

/-- The step of a Running core without a fault is the effect of the instruction its fetched word decodes to. -/
theorem effect_of_step {s t : State} {i : Instr} (hrun : s.run = .running) (hnone : faultOfCycle s = none)
    (hdec : decode s.cfg.opc (fetchedWord s) = .ok i) (hstep : step s = .next t) : Effect s.afterFetch i t := by
  obtain ⟨i', t', hdec', hstep', heffect⟩ := step_of_faultOfCycle_none hrun hnone
  obtain rfl : i' = i := Except.ok.inj (hdec'.symm.trans hdec)
  obtain rfl : t' = t := Host.Outcome.next.inj (hstep'.symm.trans hstep)
  exact heffect

@[simp] theorem afterFetch_pc (s : State) : s.afterFetch.pc = s.pc := rfl

@[simp] theorem hostReset_run (s : State) : (hostReset s).run = .running := rfl

@[simp] theorem hostReset_pc (s : State) : (hostReset s).pc = 0#16 := rfl

/-- Settles O30: the rows of the table are the ways of a step, a fault, HLT, another instruction, and an ended core. -/
theorem runStateTransitions : Obligations.RunStateTransitions := by
  refine ⟨⟨rfl, rfl⟩, fun s t hstep => ⟨fun hrun hsome => ?_, fun hrun hnone hdec => ?_,
    fun i hrun hnone hdec hi => ?_, fun hended => ?_⟩, fun s => ⟨hostReset_run s, hostReset_pc s⟩⟩
  · obtain ⟨c, hfault⟩ := Option.isSome_iff_exists.mp hsome
    obtain rfl : s.afterFetch.fail c = t :=
      Host.Outcome.next.inj ((step_of_faultOfCycle_some hrun hfault).symm.trans hstep)
    exact ⟨State.fail_run _ c, by rw [State.fail_pc, afterFetch_pc]⟩
  · obtain rfl : t = s.afterFetch.halt := (effect_of_step hrun hnone hdec hstep).eq_halt
    exact ⟨State.halt_run _, by rw [State.halt_pc, afterFetch_pc]⟩
  · have heffect := effect_of_step hrun hnone hdec hstep
    exact ⟨by rw [heffect.run_of_ne_hlt hi, afterFetch_run, hrun],
      by rw [heffect.pc_of_ne_hlt hi, nextPc_afterFetch]⟩
  · exact Host.Outcome.next.inj (hstep.symm.trans (step_of_ne_running hended))

/-- A core that is not Running is unchanged by any number of steps. -/
theorem run_of_ne_running {s : State} (hended : s.run ≠ .running) (k : Nat) :
    Host.Core.run core k s = .next s := by
  induction k with
  | zero => exact run_zero s
  | succ k ih => rw [run_succ_of_step (step_of_ne_running hended), ih]

/-- Settles O31: the step of an ended core is the identity, and so is its run; reset answers a Running core. -/
theorem endedCoreIsFrozenUntilReset : Obligations.EndedCoreIsFrozenUntilReset :=
  fun s hended => ⟨run_of_ne_running hended, hostReset_run s⟩

end Sys2Proof.Machine
end

section
namespace Sys2Proof

/-! ### Encoding and then decoding (30_encoding.md R79, R81) -/

theorem byteAt_zero_encode (m : OpcodeMap) (i : Instr) : byteAt (encode m i) 0 = m.opcode i.kind := by
  cases i <;> exact byteAt_zero_wordOfBytes _ _ _ _

/-- The layout of its own kind unpacks an encoding to the instruction. -/
theorem operands_encode (m : OpcodeMap) : ∀ i : Instr, operands i.kind (encode m i) = i
  | .ldi rd imm => Laws.OperandFields.ldi rd imm m
  | .ld rd addr => Laws.OperandFields.ld rd addr m
  | .st rs addr => Laws.OperandFields.st rs addr m
  | .add rd ra rb => Laws.OperandFields.add rd ra rb m
  | .sub rd ra rb => Laws.OperandFields.sub rd ra rb m
  | .mul rd ra rb => Laws.OperandFields.mul rd ra rb m
  | .and rd ra rb => Laws.OperandFields.and rd ra rb m
  | .or rd ra rb => Laws.OperandFields.or rd ra rb m
  | .not rd => Laws.OperandFields.not rd m
  | .cmp ra rb => Laws.OperandFields.cmp ra rb m
  | .je t => Laws.OperandFields.je t m
  | .jne t => Laws.OperandFields.jne t m
  | .hlt => Laws.OperandFields.hlt m
  | .prn rs => Laws.OperandFields.prn rs m
  | .nop => Laws.OperandFields.nop m

/-- Settles O1: an injective map finds the kind at byte 0 of the encoding, whose layout unpacks the operands. -/
theorem decodeUndoesEncode : Obligations.DecodeUndoesEncode := by
  intro m i hm
  have hkind : decodeKind m (byteAt (encode m i) 0) = some i.kind :=
    (decodeKind_eq_some_iff hm).mpr (byteAt_zero_encode m i).symm
  rw [decode_of_decodeKind_some hkind, operands_encode]

/-! ### Decoding and then encoding (R72 to R79) -/

/-- A decoded instruction is unpacked from the word by the layout of its kind. -/
theorem operands_of_decode_ok {m : OpcodeMap} {w : Word} {i : Instr} (h : decode m w = .ok i) :
    operands i.kind w = i :=
  Except.ok.inj ((decode_of_decodeKind_some (decodeKind_of_decode_ok h)).symm.trans h)

/-- Byte `n` of a word where the layout of a kind uses it, 0 where it does not. -/
def usedByte (k : Kind) (w : Word) (n : Nat) : Byte := if n < k.usedBytes then byteAt w n else 0#8

/-- Encoding the operands of a word puts the used bytes back in place, layout by layout. -/
theorem encode_operands (m : OpcodeMap) (k : Kind) (w : Word) :
    encode m (operands k w) = wordOfBytes (m.opcode k) (usedByte k w 1) (usedByte k w 2) (usedByte k w 3) := by
  cases k with
  | ldi | ld | st => simp only [operands, encode, encodeRI, k16, lowByte_halfOfBytes, highByte_halfOfBytes]; rfl
  | je | jne => simp only [operands, encode, encodeJ, t16, lowByte_halfOfBytes, highByte_halfOfBytes]; rfl
  | add | sub | mul | and | or | not | cmp | hlt | prn | nop => rfl

/-- Settles O2: byte 0 of the word is the opcode of the kind, which every layout uses; the other bytes are put back. -/
theorem encodeOfDecodeKeepsUsedBytes : Obligations.EncodeOfDecodeKeepsUsedBytes := by
  intro m w i hdec n hn
  have hopcode : m.opcode i.kind = byteAt w 0 := opcode_of_decodeKind (decodeKind_of_decode_ok hdec)
  have hencode := encode_operands m i.kind w
  rw [operands_of_decode_ok hdec] at hencode
  rw [hencode]
  obtain rfl | rfl | rfl | rfl : n = 0 ∨ n = 1 ∨ n = 2 ∨ n = 3 := by omega
  · rw [byteAt_zero_wordOfBytes, if_pos i.kind.usedBytes_pos, hopcode]
  · exact byteAt_one_wordOfBytes _ _ _ _
  · exact byteAt_two_wordOfBytes _ _ _ _
  · exact byteAt_three_wordOfBytes _ _ _ _

/-- Settles O5: each row is a closed computation of the decoder and the encoder. -/
theorem workedEncodingsDecode : Obligations.WorkedEncodingsDecode := by
  unfold Obligations.WorkedEncodingsDecode
  decide

end Sys2Proof
end

section
namespace Sys2Proof.Machine

/-! ### The laws of the memory as words (20_memory.md R58, R61) -/

namespace Memory

/-- A word reads back what was stored at its address. -/
theorem readWord_writeWord_same {m : Memory} (h : m.wf = true) (a : Nat) (w : Word) :
    (m.writeWord a w).readWord a = w := by
  have hbyte {i : Nat} (hi : i < 4) := readByte_writeWord_inside h a w hi
  have hzero := hbyte (i := 0) (by omega)
  rw [Nat.add_zero] at hzero
  rw [Memory.readWord, hzero, hbyte (by omega), hbyte (by omega), hbyte (by omega), wordOfBytes_byteAt]

/-- A store leaves every other word alone. -/
theorem readWord_writeWord_ne (m : Memory) {a b : Nat} (w : Word) (h : b ≠ a) :
    (m.writeWord a w).readWord b = m.readWord b :=
  readWord_congr fun i hi => readByte_writeWord_outside m w (by omega)

/-! ### The canonical form (log entry 6) -/

/-- Before its first key a canonical list reads as unlisted, so a list that reads alike cannot start before it. -/
theorem le_of_readByte_eq {k : Nat} {b : Byte} {rest m' : Memory} {lo : Nat} (hb : b ≠ Config.unlistedByte)
    (h' : m'.wfFrom lo = true) (heq : ∀ a, Memory.readByte ((k, b) :: rest) a = m'.readByte a) : lo ≤ k := by
  by_contra hlt
  have hread := heq k
  rw [readByte_lt_of_wfFrom h' (Nat.lt_of_not_le hlt), Memory.readByte, if_pos rfl] at hread
  exact hb hread

/-- Canonical lists with the same first entry that read alike have tails that read alike. -/
theorem readByte_tail_eq {k : Nat} {b : Byte} {rest rest' : Memory} (h : rest.wfFrom (k + 1) = true)
    (h' : rest'.wfFrom (k + 1) = true)
    (heq : ∀ a, Memory.readByte ((k, b) :: rest) a = Memory.readByte ((k, b) :: rest') a) (a : Nat) :
    rest.readByte a = rest'.readByte a := by
  by_cases ha : k = a
  · rw [readByte_lt_of_wfFrom h (by omega), readByte_lt_of_wfFrom h' (by omega)]
  · have := heq a
    rwa [Memory.readByte, Memory.readByte, if_neg ha, if_neg ha] at this

/-- Canonical lists that read alike everywhere are equal: their first entries are, and then their tails. -/
theorem eq_of_readByte_eq {lo : Nat} {m m' : Memory} (h : m.wfFrom lo = true) (h' : m'.wfFrom lo = true)
    (heq : ∀ a, m.readByte a = m'.readByte a) : m = m' := by
  induction m generalizing lo m' with
  | nil =>
    cases m' with
    | nil => rfl
    | cons c' rest' =>
      have hle := le_of_readByte_eq (wfFrom_cons.mp h').2.1 (wfFrom_nil (c'.1 + 1)) fun a => (heq a).symm
      omega
  | cons c rest ih =>
    obtain ⟨k, b⟩ := c
    obtain ⟨-, hb, hrest⟩ := wfFrom_cons.mp h
    cases m' with
    | nil =>
      have hle := le_of_readByte_eq hb (wfFrom_nil (k + 1)) heq
      omega
    | cons c' rest' =>
      obtain ⟨k', b'⟩ := c'
      obtain ⟨-, hb', hrest'⟩ := wfFrom_cons.mp h'
      have hle' : k' ≤ k := le_of_readByte_eq hb (wfFrom_cons.mpr ⟨le_refl k', hb', hrest'⟩) heq
      have hle : k ≤ k' := le_of_readByte_eq hb' (wfFrom_cons.mpr ⟨le_refl k, hb, hrest⟩) fun a => (heq a).symm
      obtain rfl : k = k' := by omega
      obtain rfl : b = b' := by simpa [Memory.readByte] using heq k
      rw [ih hrest hrest' (readByte_tail_eq hrest hrest' heq)]

end Memory

/-- Settles O47: the read after the write, at the address and away from it. -/
theorem readReturnsTheLastWrite : Obligations.ReadReturnsTheLastWrite := by
  intro m a b w hm
  split_ifs with hab
  · rw [hab, Memory.readWord_writeWord_same hm]
  · exact Memory.readWord_writeWord_ne m w hab

/-- Settles O48: the case of both lists canonical from the key 0. -/
theorem canonicalMemoriesThatReadAlikeAreEqual : Obligations.CanonicalMemoriesThatReadAlikeAreEqual :=
  fun _ _ hm hm' heq => Memory.eq_of_readByte_eq hm hm' heq

/-! ### The memory of an image (20_memory.md R55) -/

theorem below_imageFrom {n : Nat} (image : List Byte) (at0 : Nat) (h : at0 + image.length ≤ n) :
    (imageFrom at0 image).below n = true := by
  induction image generalizing at0 with
  | nil => rfl
  | cons b rest ih =>
    rw [List.length_cons] at h
    have hrest := ih (at0 + 1) (by omega)
    rw [imageFrom]
    split
    · exact hrest
    · exact Memory.below_cons.mpr ⟨by omega, hrest⟩

/-- Image byte `n` reads under its offset; beyond the image nothing is listed. -/
theorem readByte_imageFrom (image : List Byte) (at0 n : Nat) :
    (imageFrom at0 image).readByte (at0 + n) = image.getD n Config.unlistedByte := by
  induction image generalizing at0 n with
  | nil => rfl
  | cons b rest ih =>
    have htail := Memory.readByte_lt_of_wfFrom (wfFrom_imageFrom rest (at0 + 1)) (Nat.lt_succ_self at0)
    rw [imageFrom]
    cases n with
    | zero =>
      split
      next hb => rw [Nat.add_zero at0, htail, List.getD_cons_zero, hb]
      next => rw [Nat.add_zero at0, Memory.readByte, if_pos rfl, List.getD_cons_zero]
    | succ n =>
      have hrest := ih (at0 + 1) n
      rw [Nat.add_right_comm, Nat.add_assoc] at hrest
      rw [List.getD_cons_succ]
      split
      next => exact hrest
      next => rw [Memory.readByte, if_neg (by omega), hrest]

theorem readByte_memInit (image : List Byte) (n : Nat) :
    (memInit image).readByte n = image.getD n Config.unlistedByte := by
  rw [← readByte_imageFrom image 0 n, Nat.zero_add, memInit]

/-! ### Loading an image (70_reset_and_hazards.md R203, R204) -/

theorem boot_eq_some_iff {cfg : Config} {image : List Byte} {s : State} :
    boot cfg image = some s ↔
      (image.length ≤ 4 * cfg.memWords ∧ image.length % 4 = 0) ∧ State.resetWith cfg (memInit image) = s := by
  simp [boot, imageFits]

/-- Settles O52: the two checks of the host. -/
theorem imageIsAcceptedIffItFits : Obligations.ImageIsAcceptedIffItFits := by
  intro cfg image
  simp only [Option.isSome_iff_exists, boot_eq_some_iff, exists_and_left, exists_eq', and_true]

/-- Settles O51: the image byte `n` reads under the key `n`, and a word is the value of its four bytes. -/
theorem imageIsPackedLittleEndian : Obligations.ImageIsPackedLittleEndian := by
  intro cfg image s hboot
  obtain ⟨-, rfl⟩ := boot_eq_some_iff.mp hboot
  refine ⟨wfFrom_imageFrom image 0, rfl, rfl, rfl, fun k _ => ?_, fun n hn => ?_⟩
  · simp only [State.resetWith, Memory.readWord, toNat_wordOfBytes, readByte_memInit]
    rfl
  · rw [State.resetWith, readByte_memInit, List.getD_eq_default _ _ hn]

end Sys2Proof.Machine
end

section
namespace Sys2Proof.Machine

/-! ### The effect of an instruction as a function (40_cycle.md R105, R108) -/

/-- The register a byte of 0 to 15 encodes (30_encoding.md R84); the operand check keeps the larger bytes out. -/
def regIdx (b : Byte) : RegIdx := Fin.ofNat 16 b.toNat

@[simp] theorem regIdx_regByte (r : RegIdx) : regIdx (regByte r) = r := by
  rw [regIdx, toNat_regByte, Fin.ofNat_val_eq_self]

theorem regByte_regIdx {b : Byte} (h : b.toNat ≤ 15) : regByte (regIdx b) = b := by
  obtain ⟨r, rfl⟩ := exists_regByte h
  rw [regIdx_regByte]

/-- The state an instruction that passes the operand check leaves. -/
def effect : Instr → State → State
  | .ldi rd imm, s => (s.setReg (regIdx rd) (zeroExtend imm)).setPc (s.pc + 1#16)
  | .ld rd addr, s => (s.setReg (regIdx rd) (s.mem.readWord addr.toNat)).setPc (s.pc + 1#16)
  | .st rs addr, s => (s.storeWord addr.toNat (s.reg (regIdx rs))).setPc (s.pc + 1#16)
  | .add rd ra rb, s => (s.setReg (regIdx rd) (s.reg (regIdx ra) + s.reg (regIdx rb))).setPc (s.pc + 1#16)
  | .sub rd ra rb, s => (s.setReg (regIdx rd) (s.reg (regIdx ra) - s.reg (regIdx rb))).setPc (s.pc + 1#16)
  | .mul rd ra rb, s => (s.setReg (regIdx rd) (s.reg (regIdx ra) * s.reg (regIdx rb))).setPc (s.pc + 1#16)
  | .and rd ra rb, s => (s.setReg (regIdx rd) (s.reg (regIdx ra) &&& s.reg (regIdx rb))).setPc (s.pc + 1#16)
  | .or rd ra rb, s => (s.setReg (regIdx rd) (s.reg (regIdx ra) ||| s.reg (regIdx rb))).setPc (s.pc + 1#16)
  | .not rd, s => (s.setReg (regIdx rd) (~~~ (s.reg (regIdx rd)))).setPc (s.pc + 1#16)
  | .cmp ra rb, s =>
    (s.setPsw (compareFlags (s.reg (regIdx ra)) (s.reg (regIdx rb)))).setPc (s.pc + 1#16)
  | .je target, s => s.setPc (nextPc (.je target) s)
  | .jne target, s => s.setPc (nextPc (.jne target) s)
  | .hlt, s => s.halt
  | .prn rs, s => (s.emit (s.reg (regIdx rs))).setPc (s.pc + 1#16)
  | .nop, s => s.setPc (s.pc + 1#16)

/-- The operand check finds nothing exactly when every register byte is legal and the data address is in range (R104). -/
theorem operandFault_eq_none_iff {memWords : Nat} {i : Instr} :
    operandFault memWords i = none ↔
      i.wellFormed = true ∧ ∀ kind a, dataAccess i = some (kind, a) → a.toNat < memWords := by
  rw [← firstBadRegister_eq_none, operandFault]
  cases i.firstBadRegister with
  | some p => simp
  | none =>
    cases dataAccess i with
    | none => simp
    | some p =>
      obtain ⟨kind, a⟩ := p
      simp

theorem exists_regByte_of_wellFormed {i : Instr} (h : i.wellFormed = true) {pos : Fin 4} {b : Byte}
    (hb : (pos, b) ∈ i.registerBytes) : ∃ r : RegIdx, b = regByte r :=
  exists_regByte (of_decide_eq_true (List.all_eq_true.mp h (pos, b) hb))

/-- The three-register form, for each of its instructions. -/
theorem threeRegister_of_wellFormed (f : Word → Word → Word) {i : Instr} {rd ra rb : Byte} (s : State)
    (h : i.wellFormed = true) (hi : i.registerBytes = [(1, rd), (2, ra), (3, rb)]) :
    threeRegister f rd ra rb s =
      .next ((s.setReg (regIdx rd) (f (s.reg (regIdx ra)) (s.reg (regIdx rb)))).setPc (s.pc + 1#16)) := by
  obtain ⟨d, rfl⟩ := exists_regByte_of_wellFormed h (pos := 1) (b := rd) (by simp [hi])
  obtain ⟨a, rfl⟩ := exists_regByte_of_wellFormed h (pos := 2) (b := ra) (by simp [hi])
  obtain ⟨b, rfl⟩ := exists_regByte_of_wellFormed h (pos := 3) (b := rb) (by simp [hi])
  simp only [threeRegister_regByte, regIdx_regByte]

/-- An instruction that passes the operand check has its effect. -/
theorem exec_eq_effect {i : Instr} {s : State} (h : operandFault s.cfg.memWords i = none) :
    exec i s = .next (effect i s) := by
  obtain ⟨hwf, hdata⟩ := operandFault_eq_none_iff.mp h
  cases i with
  | ldi rd imm =>
    obtain ⟨d, rfl⟩ := exists_regByte_of_wellFormed hwf List.mem_cons_self
    rw [exec, execLdi_regByte, effect, regIdx_regByte]
  | ld rd addr =>
    obtain ⟨d, rfl⟩ := exists_regByte_of_wellFormed hwf List.mem_cons_self
    rw [exec, execLd_regByte d (hdata _ _ rfl), effect, regIdx_regByte]
  | st rs addr =>
    obtain ⟨r, rfl⟩ := exists_regByte_of_wellFormed hwf List.mem_cons_self
    rw [exec, execSt_regByte r (hdata _ _ rfl), effect, regIdx_regByte]
  | add rd ra rb => exact threeRegister_of_wellFormed _ s hwf rfl
  | sub rd ra rb => exact threeRegister_of_wellFormed _ s hwf rfl
  | mul rd ra rb => exact threeRegister_of_wellFormed _ s hwf rfl
  | and rd ra rb => exact threeRegister_of_wellFormed _ s hwf rfl
  | or rd ra rb => exact threeRegister_of_wellFormed _ s hwf rfl
  | not rd =>
    obtain ⟨d, rfl⟩ := exists_regByte_of_wellFormed hwf List.mem_cons_self
    rw [exec, execNot_regByte, effect, regIdx_regByte]
  | cmp ra rb =>
    obtain ⟨a, rfl⟩ := exists_regByte_of_wellFormed hwf List.mem_cons_self
    obtain ⟨b, rfl⟩ := exists_regByte_of_wellFormed hwf (List.mem_cons_of_mem _ List.mem_cons_self)
    rw [exec, execCmp_regByte, effect, regIdx_regByte, regIdx_regByte]
  | je target => exact exec_je target s
  | jne target => exact exec_jne target s
  | hlt => exact exec_hlt s
  | prn rs =>
    obtain ⟨r, rfl⟩ := exists_regByte_of_wellFormed hwf List.mem_cons_self
    rw [exec, execPrn_regByte, effect, regIdx_regByte]
  | nop => rfl

/-- The effect function and the effect relation are one: the relation holds of what the function answers. -/
theorem effect_spec {i : Instr} {s : State} (h : operandFault s.cfg.memWords i = none) : Effect s i (effect i s) := by
  obtain ⟨c, hfault, -⟩ | ⟨-, t, hexec, heffect⟩ := exec_cases i s
  · exact absurd (hfault.symm.trans h) (by simp)
  · obtain rfl : t = effect i s := Host.Outcome.next.inj (hexec.symm.trans (exec_eq_effect h))
    exact heffect

/-! ### What no effect changes -/

namespace Effect

variable {s t : State} {i : Instr}

theorem cfg_eq (h : Effect s i t) : t.cfg = s.cfg := by cases h <;> rfl

theorem fault_eq (h : Effect s i t) : t.fault = s.fault := by cases h <;> rfl

/-- The memory after an instruction is the old one or, for ST alone, the old one with a word in range stored. -/
theorem mem_cases (h : Effect s i t) :
    t.mem = s.mem ∨
      ∃ r a, i = .st (regByte r) a ∧ a.toNat < s.cfg.memWords ∧ t.mem = s.mem.writeWord a.toNat (s.reg r) := by
  cases h with
  | word r a ha => exact .inr ⟨r, a, rfl, ha, rfl⟩
  | register | flags | output | je | jne | halt | none => exact .inl rfl

/-! ### The frame of each kind of effect -/

theorem onlyWord {rs : Byte} {a : Half} (h : Effect s (.st rs a) t) : OnlyWord a.toNat s t := by
  cases h with
  | register _ d v hi => simp [Instr.kind] at hi
  | word r a ha => exact onlyWord_storeWord_setPc s _ _ _

theorem onlyFlags (h : Effect s i t) (hi : i.kind = .cmp) : OnlyFlags s t := by
  cases h with
  | flags a b => exact onlyFlags_setPsw_setPc s _ _
  | register _ d v hkind => simp [hi] at hkind
  | word | output | je | jne | halt | none => cases hi

theorem onlyOutput (h : Effect s i t) (hi : i.kind = .prn) : OnlyOutput s t := by
  cases h with
  | output r => exact onlyOutput_emit_setPc s _ _
  | register _ d v hkind => simp [hi] at hkind
  | word | flags | je | jne | halt | none => cases hi

theorem onlyRun (h : Effect s i t) (hi : i.kind = .hlt) : OnlyRun s t := by
  cases h with
  | halt => exact onlyRun_halt s
  | register _ d v hkind => simp [hi] at hkind
  | word | flags | output | je | jne | none => cases hi

theorem onlyPc (h : Effect s i t) (hi : i.kind ∈ [Kind.je, .jne, .nop]) : OnlyPc s t := by
  cases h with
  | je | jne | none => exact onlyPc_setPc s _
  | register _ d v hkind => rcases hkind with h | h | h | h | h | h | h | h <;> simp [h] at hi
  | word | flags | output | halt => simp [Instr.kind] at hi

end Effect

/-- The register an instruction writes is the one named by byte 1. -/
theorem onlyRegister_effect {i : Instr} (s : State) (hwf : i.wellFormed = true)
    (hi : i.kind ∈ [Kind.ldi, .ld, .add, .sub, .mul, .and, .or, .not]) :
    ∃ d, i.registerBytes.head? = some (1, regByte d) ∧ OnlyRegister d s (effect i s) := by
  have hbyte {b : Byte} (hb : (1, b) ∈ i.registerBytes) : some ((1 : Fin 4), b) = some (1, regByte (regIdx b)) := by
    obtain ⟨d, rfl⟩ := exists_regByte_of_wellFormed hwf hb
    rw [regIdx_regByte]
  cases i with
  | ldi rd | ld rd | add rd | sub rd | mul rd | and rd | or rd | not rd =>
    exact ⟨regIdx rd, hbyte List.mem_cons_self, onlyRegister_setReg_setPc s _ _ _⟩
  | st | cmp | je | jne | hlt | prn | nop => simp [Instr.kind] at hi

/-- Settles O23: an instruction that passes the operand check has its effect, which has the frame of its kind. -/
theorem eachInstructionHasOneEffect : Obligations.EachInstructionHasOneEffect := by
  intro i s t hok hexec
  obtain rfl : effect i s = t := Host.Outcome.next.inj ((exec_eq_effect hok).symm.trans hexec)
  have heffect := effect_spec hok
  refine ⟨onlyRegister_effect s (operandFault_eq_none_iff.mp hok).1, ?_, heffect.onlyFlags, heffect.onlyOutput,
    heffect.onlyRun, heffect.onlyPc⟩
  rintro rs a rfl
  exact heffect.onlyWord

/-- Settles O22: legal registers and an address in range pass the operand check; then only HLT changes the run state
and keeps the pc. -/
theorem everyInstructionCompletes : Obligations.EveryInstructionCompletes := by
  intro i s hwf hdata
  have hok : operandFault s.cfg.memWords i = none := operandFault_eq_none_iff.mpr ⟨hwf, hdata⟩
  have heffect := effect_spec hok
  refine ⟨effect i s, exec_eq_effect hok, heffect.fault_eq, ?_⟩
  split_ifs with hi
  · subst hi
    exact ⟨rfl, rfl⟩
  · exact ⟨heffect.run_of_ne_hlt hi, heffect.pc_of_ne_hlt hi⟩

/-! ### Integer arithmetic (42_alu.md R137) -/

theorem toInt_modEq_toNat (w : Word) : w.toInt ≡ w.toNat [ZMOD 2 ^ 32] := by
  rw [BitVec.toInt_eq_toNat_bmod]
  exact Int.bmod_emod

/-- A three-register operation that is `g` modulo 2^32 under the signed reading is so under the unsigned one. -/
theorem threeRegister_exact {f : Word → Word → Word} {g : Int → Int → Int}
    (hf : ∀ v w, (f v w).toInt ≡ g v.toInt w.toInt [ZMOD 2 ^ 32])
    (hg : ∀ {x x' y y' : Int}, x ≡ x' [ZMOD 2 ^ 32] → y ≡ y' [ZMOD 2 ^ 32] → g x y ≡ g x' y' [ZMOD 2 ^ 32])
    (s : State) (d a b : RegIdx) :
    ∃ t, threeRegister f (regByte d) (regByte a) (regByte b) s = .next t ∧ t.run = s.run ∧ t.psw = s.psw ∧
      ((t.reg d).toNat : Int) ≡ g (s.reg a).toNat (s.reg b).toNat [ZMOD 2 ^ 32] ∧
      (t.reg d).toInt ≡ g (s.reg a).toInt (s.reg b).toInt [ZMOD 2 ^ 32] := by
  obtain ⟨t, hexec, hreg, -, -, -, hpsw, -, -, -, hrun, -⟩ := threeRegister_effect f s d a b
  refine ⟨t, hexec, hrun, hpsw, ?_, hreg ▸ hf _ _⟩
  calc ((t.reg d).toNat : Int)
      ≡ (t.reg d).toInt [ZMOD 2 ^ 32] := (toInt_modEq_toNat _).symm
    _ ≡ g (s.reg a).toInt (s.reg b).toInt [ZMOD 2 ^ 32] := hreg ▸ hf _ _
    _ ≡ g (s.reg a).toNat (s.reg b).toNat [ZMOD 2 ^ 32] := hg (toInt_modEq_toNat _) (toInt_modEq_toNat _)

/-- Settles O21: the word operations are the integer operations reduced to the balanced residue modulo 2^32. -/
theorem arithmeticIsExactModulo2Pow32 : Obligations.ArithmeticIsExactModulo2Pow32 := by
  refine fun s d a b => ⟨threeRegister_exact (fun v w => ?_) Int.ModEq.add s d a b,
    threeRegister_exact (fun v w => ?_) Int.ModEq.sub s d a b,
    threeRegister_exact (fun v w => ?_) Int.ModEq.mul s d a b⟩
  · rw [BitVec.toInt_add]
    exact Int.bmod_emod
  · rw [BitVec.toInt_sub]
    exact Int.bmod_emod
  · rw [BitVec.toInt_mul]
    exact Int.bmod_emod

/-- Settles O11: the three-register effect with multiplication, whose low half is kept. -/
theorem mulWritesTheLowHalfOfTheProduct : Obligations.MulWritesTheLowHalfOfTheProduct := by
  refine ⟨fun w hw => decode_defaultOpcodes .mul hw, toNat_encodeRRR _, fun s d a b => ?_,
    fun rd ra rb => faultsOnBadRegister _⟩
  obtain ⟨t, hexec, hreg, hpc, hframe⟩ := threeRegister_effect (fun a b => a * b) s d a b
  exact ⟨t, hexec, by rw [hreg, BitVec.toNat_mul], hpc, hframe⟩

/-- Settles O20: the effect of NOP is the advance. -/
theorem nopOnlyAdvances : Obligations.NopOnlyAdvances :=
  ⟨fun _ hw => decode_defaultOpcodes .nop hw, toNat_encodeN _,
    fun s => ⟨_, exec_eq_effect rfl, pcAdvanced_of_pc_eq rfl, onlyPc_setPc s _⟩⟩

end Sys2Proof.Machine
end

section
namespace Sys2Proof.Machine

/-! ### What the next step does, phase by phase (40_cycle.md R101 to R105) -/

/-- Settles O24: of the ways of a step only the decoded instruction is left. -/
theorem stepRunsTheDecodedInstruction : Obligations.StepRunsTheDecodedInstruction := by
  intro s i hrun hpc hdec
  obtain ⟨hended, -⟩ | ⟨-, hout, -⟩ | ⟨-, -, ⟨e, herror⟩, -⟩ | ⟨-, -, i', hdec', hstep⟩ := step_cases s
  · exact absurd hrun hended
  · exact absurd hpc (Nat.not_lt.mpr hout)
  · exact absurd (herror.symm.trans hdec) (by simp)
  · obtain rfl : i' = i := Except.ok.inj (hdec'.symm.trans hdec)
    exact hstep

theorem step_of_decode_ok {s : State} {i : Instr} (hrun : s.run = .running) (hpc : s.pc.toNat < s.cfg.memWords)
    (hdec : decode s.cfg.opc (fetchedWord s) = .ok i) : step s = exec i (s.setIr (fetchedWord s)) :=
  stepRunsTheDecodedInstruction s i hrun hpc hdec

/-- A cycle reads the state through its fetch alone, once the fetch succeeds. -/
theorem cycle_congr_fetch {s s' u : State} (h : fetch s = some u) (h' : fetch s' = some u) : cycle s = cycle s' := by
  simp only [cycle, h, h']

theorem step_of_running {s : State} (h : s.run = .running) : step s = cycle s := by
  simp only [step, h]

theorem decodeIr_afterFetch {s : State} (h : s.pc.toNat < s.cfg.memWords) :
    decodeIr s.afterFetch = decode s.cfg.opc (fetchedWord s) := by
  rw [afterFetch_inRange h]
  rfl

/-- Settles O44: the fetch writes `ir`, so from either state it leaves the same one. -/
theorem oldInstructionWordIsDead : Obligations.OldInstructionWordIsDead := by
  intro s w hrun hpc
  have hfetch : fetch (s.setIr w) = some (s.setIr (fetchedWord s)) := fetch_inRange hpc
  calc step (s.setIr w) = cycle (s.setIr w) := step_of_running hrun
    _ = cycle s := cycle_congr_fetch hfetch (fetch_inRange hpc)
    _ = step s := (step_of_running hrun).symm

/-- The three ways of a step, with the state it leaves: an ended core stays, a fault is raised after the fetch phase, or
the decoded instruction has its effect there. -/
inductive StepTo (s : State) : State → Prop where
  | ended (hended : s.run ≠ .running) : StepTo s s
  | fault (hrun : s.run = .running) (c : FaultCause) (hfault : faultOfCycle s = some c) :
      StepTo s (s.afterFetch.fail c)
  | completed (hrun : s.run = .running) (i : Instr) (hpc : s.pc.toNat < s.cfg.memWords)
      (hdec : decode s.cfg.opc (fetchedWord s) = .ok i) (hok : operandFault s.cfg.memWords i = none) :
      StepTo s (effect i s.afterFetch)

theorem StepTo.step_eq {s t : State} (h : StepTo s t) : step s = .next t := by
  cases h with
  | ended hended => exact step_of_ne_running hended
  | fault hrun c hfault => exact step_of_faultOfCycle_some hrun hfault
  | completed hrun i hpc hdec hok =>
    rw [step_of_decode_ok hrun hpc hdec, afterFetch_inRange hpc]
    exact exec_eq_effect hok

/-- Every state has a next one, by one of the three ways (R110). -/
theorem exists_stepTo (s : State) : ∃ t, StepTo s t := by
  by_cases hrun : s.run = .running
  · cases hfault : faultOfCycle s with
    | some c => exact ⟨_, .fault hrun c hfault⟩
    | none =>
      have hpc : s.pc.toNat < s.cfg.memWords := by
        by_contra hout
        simp [faultOfCycle_outOfRange (Nat.le_of_not_lt hout)] at hfault
      obtain ⟨i, -, hdec, -⟩ := step_of_faultOfCycle_none hrun hfault
      exact ⟨_, .completed hrun i hpc hdec ((faultOfCycle_of_decode_ok hpc hdec).symm.trans hfault)⟩
  · exact ⟨s, .ended hrun⟩

theorem stepTo_of_step {s t : State} (h : step s = .next t) : StepTo s t := by
  obtain ⟨u, hto⟩ := exists_stepTo s
  obtain rfl : u = t := Host.Outcome.next.inj (hto.step_eq.symm.trans h)
  exact hto

/-! ### Runs (R111) -/

/-- What every step keeps, every run keeps. -/
theorem run_keeps {P : State → Prop} (hstep : ∀ {s t}, P s → StepTo s t → P t) (k : Nat) {s t : State} (hs : P s)
    (hrun : Host.Core.run core k s = .next t) : P t := by
  induction k generalizing s with
  | zero =>
    obtain rfl : s = t := Host.Outcome.next.inj hrun
    exact hs
  | succ k ih =>
    obtain ⟨u, hto⟩ := exists_stepTo s
    rw [run_succ_of_step hto.step_eq] at hrun
    exact ih (hstep hs hto) hrun

/-- Where each step of one core is followed by a related step of another, so is each run. -/
theorem run_simulates {R : State → State → Prop}
    (hstep : ∀ {s s' t}, R s s' → StepTo s t → ∃ t', StepTo s' t' ∧ R t t') (k : Nat) {s s' t : State} (hs : R s s')
    (hrun : Host.Core.run core k s = .next t) : ∃ t', Host.Core.run core k s' = .next t' ∧ R t t' := by
  induction k generalizing s s' with
  | zero =>
    obtain rfl : s = t := Host.Outcome.next.inj hrun
    exact ⟨s', run_zero s', hs⟩
  | succ k ih =>
    obtain ⟨u, hto⟩ := exists_stepTo s
    obtain ⟨u', hto', hu⟩ := hstep hs hto
    rw [run_succ_of_step hto.step_eq] at hrun
    rw [run_succ_of_step hto'.step_eq]
    exact ih hu hrun

/-- Settles O33: a step has one of its three ways, and a run is step after step. -/
theorem everyStepAnswersANextState : Obligations.EveryStepAnswersANextState := by
  refine ⟨fun s => (exists_stepTo s).imp fun t => StepTo.step_eq, fun k s => ?_⟩
  induction k generalizing s with
  | zero => exact ⟨s, run_zero s⟩
  | succ k ih =>
    obtain ⟨u, hto⟩ := exists_stepTo s
    rw [run_succ_of_step hto.step_eq]
    exact ih u

end Sys2Proof.Machine
end

section
namespace Sys2Proof.Machine

/-! ### The invariant (10_state.md R26, R31, R32) -/

theorem State.Inv.fault_eq_none {s : State} (h : s.Inv) (hrun : s.run ≠ .faulted) : s.fault = none := by
  rw [← Option.not_isSome_iff_eq_none, ← h.record]
  exact hrun

/-- Outside Faulted and with no record, what the invariant says of the record holds by itself. -/
theorem State.Inv.of_fault_eq_none {s : State} (config : s.cfg.wf = true) (memory : s.mem.wf = true)
    (capacity : s.mem.below (4 * s.cfg.memWords) = true) (flags : s.psw ≠ 3#2) (hrun : s.run ≠ .faulted)
    (hfault : s.fault = none) : s.Inv where
  config := config
  memory := memory
  capacity := capacity
  flags := flags
  record := by simp [hrun, hfault]
  recordNow r hr := by simp [hfault] at hr

/-- Taking a fault writes the record the invariant asks for, whatever record there was (60_exceptions.md R174). -/
theorem State.Inv.fail {s : State} (h : s.Inv) (c : FaultCause) : (s.fail c).Inv where
  config := h.config
  memory := h.memory
  capacity := h.capacity
  flags := h.flags
  record := by simp
  recordNow r hr := by
    obtain rfl := Option.some.inj hr
    exact ⟨rfl, byteAt_zero_eq_setWidth s.ir⟩

/-- The fetch phase of a Running core writes `ir` alone, and there is no record to name it. -/
theorem State.Inv.afterFetch {s : State} (h : s.Inv) (hrun : s.run = .running) : s.afterFetch.Inv := by
  have hnot : s.run ≠ .faulted := by simp [hrun]
  exact .of_fault_eq_none h.config h.memory h.capacity h.flags hnot (h.fault_eq_none hnot)

/-- The memory an effect leaves is canonical and within the capacity: a store is in range. -/
theorem Effect.memory_inv {s t : State} {i : Instr} (h : Effect s i t) (hs : s.Inv) :
    t.mem.wf = true ∧ t.mem.below (4 * s.cfg.memWords) = true := by
  obtain hsame | ⟨r, a, -, ha, hstore⟩ := h.mem_cases
  · rw [hsame]
    exact ⟨hs.memory, hs.capacity⟩
  · rw [hstore]
    exact ⟨Memory.wf_writeWord hs.memory _ _, Memory.below_writeWord hs.capacity ha _⟩

theorem Effect.psw_ne_both {s t : State} {i : Instr} (h : Effect s i t) (hs : s.psw ≠ 3#2) : t.psw ≠ 3#2 := by
  obtain hsame | ⟨a, b, -, hflags⟩ := h.psw_cases
  · rwa [hsame]
  · rw [hflags]
    exact compareFlags_ne_both _ _

theorem Effect.inv {s t : State} {i : Instr} (h : Effect s i t) (hs : s.Inv) (hrun : s.run = .running) : t.Inv := by
  obtain ⟨hmem, hbelow⟩ := h.memory_inv hs
  refine .of_fault_eq_none ?_ hmem ?_ (h.psw_ne_both hs.flags) (h.run_ne_faulted hrun) ?_
  · rw [h.cfg_eq]
    exact hs.config
  · rwa [h.cfg_eq]
  · rw [h.fault_eq]
    exact hs.fault_eq_none (by simp [hrun])

theorem StepTo.inv {s t : State} (h : StepTo s t) (hs : s.Inv) : t.Inv := by
  cases h with
  | ended => exact hs
  | fault hrun c => exact (hs.afterFetch hrun).fail c
  | completed hrun i hpc hdec hok => exact (effect_spec (s := s.afterFetch) hok).inv (hs.afterFetch hrun) hrun

/-- Settles O34: each way of a step keeps the invariant, through the fetch phase and then the fault or the effect. -/
theorem everyStepKeepsTheInvariant : Obligations.EveryStepKeepsTheInvariant :=
  fun _ _ hs hstep => (stepTo_of_step hstep).inv hs

/-! ### Reset and boot (70_reset_and_hazards.md R200 to R203) -/

theorem resetWith_inv {cfg : Config} {m : Memory} (hcfg : cfg.wf = true) (hm : m.wf = true)
    (hbelow : m.below (4 * cfg.memWords) = true) : (State.resetWith cfg m).Inv :=
  .of_fault_eq_none hcfg hm hbelow (by simp [State.resetWith]) (by simp [State.resetWith]) rfl

/-- Settles O35: the default configuration is legal, and no byte is listed. -/
theorem resetMeetsTheInvariant : Obligations.ResetMeetsTheInvariant :=
  resetWith_inv (by decide) rfl rfl

/-- Settles O36: the image becomes canonical memory within its own length, which the size check bounds; reset keeps the
configuration and the memory. -/
theorem hostActsGiveTheInvariant : Obligations.HostActsGiveTheInvariant := by
  refine ⟨fun cfg image s hcfg hboot => ?_, fun s hs => resetWith_inv hs.config hs.memory hs.capacity⟩
  obtain ⟨⟨hlen, -⟩, rfl⟩ := boot_eq_some_iff.mp hboot
  exact resetWith_inv hcfg (wfFrom_imageFrom image 0) (below_imageFrom image 0 (by omega))

/-- Settles O37: the values of the reset table, field by field. -/
theorem resetClearsEveryRegister : Obligations.ResetClearsEveryRegister :=
  ⟨fun s => ⟨rfl, rfl, State.resetWith_reg s.cfg s.mem, rfl, rfl, rfl, rfl, rfl, rfl⟩, rfl, rfl, rfl, rfl, rfl⟩

end Sys2Proof.Machine
end

section
namespace Sys2Proof.Machine

/-! ### What no step changes: the configuration, and memory outside a store (10_state.md R31, R38) -/

theorem StepTo.cfg_eq {s t : State} (h : StepTo s t) : t.cfg = s.cfg := by
  cases h with
  | ended | fault => rfl
  | completed hrun i hpc hdec hok => exact (effect_spec (s := s.afterFetch) hok).cfg_eq

/-- Settles O41: no step changes the configuration, so no run does. -/
theorem stepKeepsTheConfiguration : Obligations.StepKeepsTheConfiguration := fun k _ _ hrun =>
  run_keeps (fun hs hto => hto.cfg_eq.trans hs) k rfl hrun

/-- Settles O39: of the ways of a step only the effect of an ST writes memory, and only the word at its address. -/
theorem onlyStoreWritesMemory : Obligations.OnlyStoreWritesMemory := by
  intro s t k hstep hchanged
  cases stepTo_of_step hstep with
  | ended | fault => exact absurd rfl hchanged
  | completed hrun i hpc hdec hok =>
    obtain hsame | ⟨r, a, rfl, ha, hstore⟩ := (effect_spec (s := s.afterFetch) hok).mem_cases
    · exact absurd (congrArg (Memory.readByte · k) hsame) hchanged
    · have hinside : ¬ (k < 4 * a.toNat ∨ 4 * a.toNat + 4 ≤ k) := fun hout =>
        hchanged (by rw [hstore, Memory.readByte_writeWord_outside _ _ hout]; rfl)
      exact ⟨hrun, r, a, hdec, ha, by omega, by omega⟩

/-! ### The output (44_system.md R161) -/

/-- The value an instruction prints: that of the register of a PRN, where it is legal. -/
def printedValue : Instr → State → Option Word
  | .prn rs, s => if rs.toNat ≤ 15 then some (s.reg (regIdx rs)) else none
  | _, _ => none

/-- What is printed does not depend on `ir`. -/
theorem printedValue_afterFetch (i : Instr) (s : State) : printedValue i s.afterFetch = printedValue i s := by
  cases i <;> rfl

/-- The print port of a Running core shows the value its decoded instruction prints. -/
theorem outPort_of_decode_ok {s : State} {i : Instr} (hrun : s.run = .running) (hpc : s.pc.toNat < s.cfg.memWords)
    (hdec : decode s.cfg.opc (fetchedWord s) = .ok i) : outPort s = printedValue i s := by
  rw [outPort, if_pos hrun, fetch_eq_afterFetch hpc, Option.bind_some, decodeIr_afterFetch hpc, hdec]
  cases i with
  | prn rs =>
    simp only [printedValue, Nat.lt_succ_iff]
    split_ifs with h
    · obtain ⟨r, rfl⟩ := exists_regByte h
      simp
    · rfl
  | _ => rfl

theorem outPort_of_ne_running {s : State} (h : s.run ≠ .running) : outPort s = none := if_neg h

/-- A fault prints nothing: a bad register byte is among the faults. -/
theorem outPort_of_faultOfCycle_some {s : State} {c : FaultCause} (hrun : s.run = .running)
    (hfault : faultOfCycle s = some c) : outPort s = none := by
  by_cases hpc : s.pc.toNat < s.cfg.memWords
  · cases hdec : decode s.cfg.opc (fetchedWord s) with
    | error e =>
      rw [outPort, if_pos hrun, fetch_eq_afterFetch hpc, Option.bind_some, decodeIr_afterFetch hpc, hdec]
    | ok i =>
      rw [outPort_of_decode_ok hrun hpc hdec]
      rw [faultOfCycle_of_decode_ok hpc hdec] at hfault
      cases i with
      | prn rs =>
        refine if_neg fun hlegal => ?_
        obtain ⟨r, rfl⟩ := exists_regByte hlegal
        have hok : operandFault s.cfg.memWords (.prn (regByte r)) = none :=
          operandFault_eq_none_iff.mpr ⟨wellFormed_of_one_register rfl, fun _ _ h => by cases h⟩
        cases hok.symm.trans hfault
      | _ => rfl
  · rw [outPort, if_pos hrun, fetch_outOfRange (Nat.le_of_not_lt hpc), Option.bind_none]

/-- An instruction that passes the operand check appends what it prints. -/
theorem effect_out {i : Instr} (s : State) (hwf : i.wellFormed = true) :
    (effect i s).out = s.out ++ (printedValue i s).toList := by
  cases i with
  | prn rs =>
    obtain ⟨r, rfl⟩ := exists_regByte_of_wellFormed hwf List.mem_cons_self
    have hr : r.val ≤ 15 := Nat.le_of_lt_succ r.isLt
    simp [effect, printedValue, hr]
  | _ => exact (List.append_nil s.out).symm

/-- Settles O40: an ended core and a fault print nothing on either side, and an effect appends what the port shows. -/
theorem outputGrowsByWhatThePortShows : Obligations.OutputGrowsByWhatThePortShows := by
  intro s t hstep
  cases stepTo_of_step hstep with
  | ended hended => rw [outPort_of_ne_running hended, Option.toList_none, List.append_nil]
  | fault hrun c hfault =>
    rw [outPort_of_faultOfCycle_some hrun hfault, Option.toList_none, List.append_nil]
    rfl
  | completed hrun i hpc hdec hok =>
    rw [outPort_of_decode_ok hrun hpc hdec, ← printedValue_afterFetch]
    exact effect_out s.afterFetch (operandFault_eq_none_iff.mp hok).1

/-! ### The debug port (60_exceptions.md R186) -/

theorem decodeKind_of_decode_error {m : OpcodeMap} {w : Word} {e : DecodeError} (h : decode m w = .error e) :
    decodeKind m (byteAt w 0) = none := by
  cases hk : decodeKind m (byteAt w 0) with
  | none => rfl
  | some k => cases (decode_of_decodeKind_some hk).symm.trans h

/-- With the toggle set, a Running core that fetches samples the kind the table finds at byte 0, if it finds one. -/
theorem dbgPort_of_fetch {s : State} (hdbg : s.cfg.dbgEn = true) (hrun : s.run = .running)
    (hpc : s.pc.toNat < s.cfg.memWords) :
    dbgPort s =
      (decodeKind s.cfg.opc (byteAt (fetchedWord s) 0)).map fun k => dbgSample k (s.setIr (fetchedWord s)) := by
  simp [dbgPort, hdbg, hrun, fetch_inRange hpc, fetchedWord]

theorem dbgPort_of_dbgEn_false {s : State} (h : s.cfg.dbgEn = false) : dbgPort s = none := by simp [dbgPort, h]

theorem dbgPort_of_ne_running {s : State} (h : s.run ≠ .running) : dbgPort s = none := by simp [dbgPort, h]

theorem dbgPort_of_outOfRange {s : State} (h : s.cfg.memWords ≤ s.pc.toNat) : dbgPort s = none := by
  simp [dbgPort, fetch_outOfRange h]

/-- Settles O46: the sample of the decoded kind where there is one; otherwise the toggle, the run state, the fetch or
the decode leaves the port empty. -/
theorem debugPortShowsTheTracePoint : Obligations.DebugPortShowsTheTracePoint := by
  refine ⟨fun s i hdbg hrun hpc hdec => ?_, fun _ => dbgPort_of_dbgEn_false, fun _ => dbgPort_of_ne_running,
    fun _ => dbgPort_of_outOfRange, fun s e hdec => ?_⟩
  · rw [dbgPort_of_fetch hdbg hrun hpc, decodeKind_of_decode_ok hdec]
    rfl
  · by_cases hdbg : s.cfg.dbgEn = true
    · by_cases hrun : s.run = .running
      · by_cases hpc : s.pc.toNat < s.cfg.memWords
        · rw [dbgPort_of_fetch hdbg hrun hpc, decodeKind_of_decode_error hdec, Option.map_none]
        · exact dbgPort_of_outOfRange (Nat.le_of_not_lt hpc)
      · exact dbgPort_of_ne_running hrun
    · exact dbgPort_of_dbgEn_false (Bool.eq_false_of_not_eq_true hdbg)

/-! ### The address fault (20_memory.md R51, 60_exceptions.md R177) -/

theorem memWords_le_of_operandFault {memWords : Nat} {i : Instr} {kind : AccessKind} {a : Half}
    (h : operandFault memWords i = some (.addressOutOfRange kind a)) : memWords ≤ a.toNat := by
  unfold operandFault at h
  split at h
  · cases h
  · split at h
    · split_ifs at h with hout
      obtain ⟨-, rfl⟩ : _ = kind ∧ _ = a := by simpa using h
      exact hout
    · cases h

/-- An address fault of a cycle, by fetch, load or store, names an address at or beyond the capacity. -/
theorem memWords_le_of_faultOfCycle {s : State} {kind : AccessKind} {a : Half}
    (h : faultOfCycle s = some (.addressOutOfRange kind a)) : s.cfg.memWords ≤ a.toNat := by
  by_cases hpc : s.pc.toNat < s.cfg.memWords
  · cases hdec : decode s.cfg.opc (fetchedWord s) with
    | error e => cases (faultOfCycle_of_decode_error hpc hdec).symm.trans h
    | ok i => exact memWords_le_of_operandFault ((faultOfCycle_of_decode_ok hpc hdec).symm.trans h)
  · have hout := Nat.le_of_not_lt hpc
    obtain ⟨-, rfl⟩ : _ = kind ∧ _ = a := by simpa [faultOfCycle_outOfRange hout] using h
    exact hout

/-- Settles O42: a record new in a step is that of the fault of its cycle, and every 16-bit address is below 65536. -/
theorem fullMemoryHasNoAddressFault : Obligations.FullMemoryHasNoAddressFault := by
  intro s t r kind a hfull hnone hstep hrecord hcause
  cases stepTo_of_step hstep with
  | ended => cases hnone.symm.trans hrecord
  | fault hrun c hfault =>
    obtain rfl := Option.some.inj hrecord
    rw [show c = .addressOutOfRange kind a from hcause] at hfault
    have hle := memWords_le_of_faultOfCycle hfault
    have hlt := a.isLt
    omega
  | completed hrun i hpc hdec hok =>
    cases ((effect_spec (s := s.afterFetch) hok).fault_eq.trans hnone).symm.trans hrecord

end Sys2Proof.Machine
end

section
namespace Sys2Proof.Machine

/-! ### No step reads the debug toggle (40_cycle.md R103, 60_exceptions.md R186) -/

theorem effect_withDbg (b : Bool) (i : Instr) (s : State) : effect i (s.withDbg b) = (effect i s).withDbg b := by
  cases i <;> rfl

theorem StepTo.withDbg (b : Bool) {s t : State} (h : StepTo s t) : StepTo (s.withDbg b) (t.withDbg b) := by
  cases h with
  | ended hended => exact .ended hended
  | fault hrun c hfault => exact .fault (s := s.withDbg b) hrun c hfault
  | completed hrun i hpc hdec hok =>
    rw [← effect_withDbg]
    exact .completed (s := s.withDbg b) hrun i hpc hdec hok

/-- Settles O45: setting the toggle commutes with every step. -/
theorem debugToggleChangesNothing : Obligations.DebugToggleChangesNothing := by
  intro k s t b hrun
  obtain ⟨_, hrun', rfl⟩ := run_simulates (R := fun u u' => u' = u.withDbg b)
    (by rintro u _ v rfl hto; exact ⟨_, hto.withDbg b, rfl⟩) k rfl hrun
  exact hrun'

/-! ### No instruction reads the negative flag (10_state.md R27) -/

/-- `s'` is `s` but for the negative flag. -/
def AgreeButN (s s' : State) : Prop := ∃ p : BitVec 2, p.getLsbD 0 = s.psw.getLsbD 0 ∧ s' = s.setPsw p

/-- CMP writes both flags over; the jumps read Z alone; no other instruction reads or writes a flag. -/
theorem effect_agreeButN {s s' : State} (h : AgreeButN s s') (i : Instr) : AgreeButN (effect i s) (effect i s') := by
  obtain ⟨p, hp, rfl⟩ := h
  cases i with
  | cmp ra rb => exact ⟨_, rfl, rfl⟩
  | je target => exact ⟨p, hp, by simp only [effect, nextPc, State.setPsw_psw, hp]; rfl⟩
  | jne target => exact ⟨p, hp, by simp only [effect, nextPc, State.setPsw_psw, hp]; rfl⟩
  | _ => exact ⟨p, hp, rfl⟩

theorem StepTo.agreeButN {s s' t : State} (hs : AgreeButN s s') (h : StepTo s t) :
    ∃ t', StepTo s' t' ∧ AgreeButN t t' := by
  obtain ⟨p, hp, rfl⟩ := hs
  cases h with
  | ended hended => exact ⟨_, .ended hended, p, hp, rfl⟩
  | fault hrun c hfault => exact ⟨_, .fault (s := s.setPsw p) hrun c hfault, p, hp, rfl⟩
  | completed hrun i hpc hdec hok =>
    exact ⟨_, .completed (s := s.setPsw p) hrun i hpc hdec hok, effect_agreeButN (s := s.afterFetch) ⟨p, hp, rfl⟩ i⟩

/-- Settles O43: states that agree but for N step to states that agree but for N. -/
theorem negativeFlagIsInvisible : Obligations.NegativeFlagIsInvisible := by
  intro k s t p hp hrun
  obtain ⟨_, hrun', q, hq, rfl⟩ := run_simulates StepTo.agreeButN k ⟨p, hp, rfl⟩ hrun
  exact ⟨q, hq, hrun'⟩

/-! ### A store and the next fetch (20_memory.md R63) -/

/-- Settles O49: the step of the ST has its effect on the state that holds it in `ir`, and the next fetch reads the
stored word. -/
theorem storeIsSeenByTheNextFetch : Obligations.StoreIsSeenByTheNextFetch := by
  intro s r a hmem hrun hpc hdec ha
  have hstep := (step_of_decode_ok hrun hpc hdec).trans (execSt_regByte r (s := s.setIr (fetchedWord s)) ha)
  have hread : (s.mem.writeWord a.toNat (s.reg r)).readWord a.toNat = s.reg r :=
    Memory.readWord_writeWord_same hmem _ _
  refine ⟨_, hstep, hread, rfl, ?_⟩
  rintro rfl
  rw [fetch_inRange ha]
  exact congrArg (fun w => some (State.setIr _ w)) hread

/-! ### A jump to itself (43_compare_and_jumps.md R152) -/

/-- A state that steps to itself is its own end after any number of steps. -/
theorem run_of_step_self {s : State} (h : step s = .next s) (k : Nat) : Host.Core.run core k s = .next s := by
  induction k with
  | zero => exact run_zero s
  | succ k ih => rw [run_succ_of_step h, ih]

/-- The step of a taken jump to its own address puts the jump in `ir` and changes nothing else. -/
theorem step_of_jump_to_self {s : State} (hrun : s.run = .running) (hpc : s.pc.toNat < s.cfg.memWords)
    (hdec : decode s.cfg.opc (fetchedWord s) = .ok (.je s.pc)) (hz : s.psw.getLsbD 0 = true) :
    step s = .next (s.setIr (fetchedWord s)) := by
  rw [step_of_decode_ok hrun hpc hdec]
  exact exec_of_takesJump (s := s.setIr (fetchedWord s)) (.inl ⟨rfl, hz⟩)

/-- Settles O50: the first step puts the jump in `ir`, and the state it leaves steps to itself. -/
theorem jumpToItselfRunsForEver : Obligations.JumpToItselfRunsForEver := by
  intro s hrun hpc hdec hz
  have hpositive (k : Nat) : Host.Core.run core (k + 1) s = .next (s.setIr (fetchedWord s)) := by
    rw [run_succ_of_step (step_of_jump_to_self hrun hpc hdec hz)]
    exact run_of_step_self (step_of_jump_to_self (s := s.setIr (fetchedWord s)) hrun hpc hdec hz) k
  refine fun k => ⟨hpositive k, fun j _ => ?_⟩
  cases j with
  | zero => exact ⟨s, run_zero s, by simp [hrun]⟩
  | succ j => exact ⟨_, hpositive j, by simp [hrun]⟩

/-! ### A placed word (40_cycle.md R101, R102) -/

/-- The decoder of a table word reads the word made of its bits. -/
theorem decode_of_decodeTableWord {nbits w : Nat} {i : Instr} (h : decodeTableWord nbits w = some i) :
    decode defaultOpcodes (BitVec.ofNat 32 (w % 2 ^ nbits)) = .ok i := by
  simp only [decodeTableWord, decodeBytes, wordOfBytes_byteAt] at h
  split_ifs at h
  cases hdec : decode defaultOpcodes (BitVec.ofNat 32 (w % 2 ^ nbits)) with
  | error e => simp [hdec, Except.toOption] at h
  | ok i' => simpa [hdec, Except.toOption] using h

theorem fetchedWord_placeAtPc {s : State} (hmem : s.mem.wf = true) (w : Word) : fetchedWord (placeAtPc s w) = w :=
  Memory.readWord_writeWord_same hmem s.pc.toNat w

/-- Settles O53: the placed word is the fetched one, which decodes to the instruction. -/
theorem placedWordIsTheOneTheStepRuns : Obligations.PlacedWordIsTheOneTheStepRuns := by
  intro s nbits w i hmem hopc hpc htable
  have hword : fetchedWord (s.withFetchWord nbits w) = BitVec.ofNat 32 (w % 2 ^ nbits) :=
    fetchedWord_placeAtPc hmem _
  have hdec : decode (s.withFetchWord nbits w).cfg.opc (fetchedWord (s.withFetchWord nbits w)) = .ok i := by
    rw [hword, show (s.withFetchWord nbits w).cfg.opc = defaultOpcodes from hopc]
    exact decode_of_decodeTableWord htable
  have hstep : step (s.withFetchWord nbits w) = exec i ((s.withFetchWord nbits w).setIr (fetchedWord _)) :=
    step_of_decode_ok rfl hpc hdec
  rw [hword] at hstep
  exact hstep

end Sys2Proof.Machine
end
